-- ==== Sys2Proof/Word.lean ====
section
/-!
DEFINITION. The widths of the machine (00_scope.md R6, R10): bytes, 16-bit words, the 12-bit address field and the
register index. Every value of this hardware is unsigned.
-/
namespace Sys2Proof

/-- An 8-bit value: a general register, a timer, a byte of memory (R6). -/
abbrev Byte := BitVec 8

/-- A 16-bit value: I, PC, a return address, an instruction word (R6, R70). -/
abbrev Word := BitVec 16

/-- The 12-bit address field `nnn` of an instruction (R72). -/
abbrev Addr12 := BitVec 12

/-- A 4-bit field of an instruction (R71). -/
abbrev Nibble := BitVec 4

/-- The index of a general register V0 to VF, of a key or of a return-stack entry: 0x0 to 0xF (R21, R26, R33). -/
abbrev Index := Fin 16

end Sys2Proof
end

