-- ==== Sys2Proof/Config.lean ====
section
/-!
DEFINITION. The construction parameters of 00_scope.md R7, as data that an instance keeps for its life, and the one
free value of the machine, the random draw of R8. The default setting stands in Machine/Defaults.lean.
-/
namespace Sys2Proof

/-- The configuration parameters of R7. An instance is constructed with one setting of them and keeps it (R270); no
instruction can read or write them (R38). The model carries the setting in State (log entry 4), so that a statement
about every state is a statement about every setting. -/
structure Config where
  /-- 8xy6/8xyE shift V[y] into V[x] (true) or shift V[x] in place (false): R138, R140. -/
  quirkShiftVy : Bool
  /-- Fx55/Fx65 leave I + x + 1 in I (true) or leave I unchanged (false): R213, R214. -/
  quirkMemIncrementI : Bool
  /-- Bnnn jumps to nnn + V[nnn[11:8]] (true) or to nnn + V0 (false): R107. -/
  quirkJumpVx : Bool
  /-- 8xy1/8xy2/8xy3 also set VF to 0 (true) or leave VF alone (false): R133 to R135. -/
  quirkLogicVfReset : Bool
  /-- FONT_BASE, the address of the first font byte (R37, R52). -/
  fontBase : Addr12
  /-- FONT_GLYPHS, the 16 five-byte glyphs in digit order (R37). -/
  fontGlyphs : Vector Byte 80
deriving DecidableEq, Repr

/-- The random bytes of Cxkk: a free value, under no law (R8, R142; log entry 6). It has no body, so nothing can be
proved of any of its bytes, and a claim holds whatever they are. The argument is the number of draws taken before. -/
opaque Config.randomDraw : Nat → Byte

end Sys2Proof
end

