-- ==== Sys2Proof/Machine/Defaults.lean ====
section
/-!
DEFINITION. The default setting of the construction parameters (00_scope.md R7) and the default font (10_state.md
R37). Both are the spec's own choices, not its source's (log entry 5).
-/
namespace Sys2Proof.Machine

/-- The conventional font, the default of FONT_GLYPHS: glyphs 0 to F, five row bytes each (R37). -/
def defaultGlyphs : Vector Byte 80 := #v[
  0xF0, 0x90, 0x90, 0x90, 0xF0,
  0x20, 0x60, 0x20, 0x20, 0x70,
  0xF0, 0x10, 0xF0, 0x80, 0xF0,
  0xF0, 0x10, 0xF0, 0x10, 0xF0,
  0x90, 0x90, 0xF0, 0x10, 0x10,
  0xF0, 0x80, 0xF0, 0x10, 0xF0,
  0xF0, 0x80, 0xF0, 0x90, 0xF0,
  0xF0, 0x10, 0x20, 0x40, 0x40,
  0xF0, 0x90, 0xF0, 0x90, 0xF0,
  0xF0, 0x90, 0xF0, 0x10, 0xF0,
  0xF0, 0x90, 0xF0, 0x90, 0x90,
  0xE0, 0x90, 0xE0, 0x90, 0xE0,
  0xF0, 0x80, 0x80, 0x80, 0xF0,
  0xE0, 0x90, 0x90, 0x90, 0xE0,
  0xF0, 0x80, 0xF0, 0x80, 0xF0,
  0xF0, 0x80, 0xF0, 0x80, 0x80]

/-- The default setting: every quirk off, the font at 0x000, the conventional glyphs (R7). -/
def defaultConfig : Config where
  quirkShiftVy := false
  quirkMemIncrementI := false
  quirkJumpVx := false
  quirkLogicVfReset := false
  fontBase := 0x000
  fontGlyphs := defaultGlyphs

end Sys2Proof.Machine
end

