-- ==== Sys2Proof/Machine/State.lean ====
section
/-!
DEFINITION. The state vector of 10_state.md R20 as plain data, the reasons a step can stop, and the state after
construction (R40, R270), which is the core's only reset (R271).
-/
namespace Sys2Proof.Machine

/-- The four reasons of a halt (R240). Only an unsupported instruction records anything: its whole word (R241). -/
inductive HaltReason where
  /-- The fetched word matches no instruction (R79, R101). -/
  | unsupportedInstruction (raw : Word)
  /-- CALL with SP = 16 (R106). -/
  | stackOverflow
  /-- RET with SP = 0 (R104). -/
  | stackUnderflow
  /-- A fetch with PC outside [0x200, 0xFFE], or a data access outside [0x000, 0xFFF] (R53, R101). -/
  | addressOutOfRange
deriving DecidableEq, Repr

/-- Whether the engine may still step (R36). Nothing clears a halt (R244). -/
inductive Status where
  | running
  | halted (reason : HaltReason)
deriving DecidableEq, Repr

/-- Memory by its difference from its content after construction: (address, byte) pairs with strictly rising
addresses, none equal to what an unlisted address reads as (Machine/Ops.lean, `Memory.wf`; log entry 8). -/
abbrev Memory := List Host.Cell

/-- The framebuffer (R30): row y, column x, true where the pixel is set. -/
abbrev Framebuffer := Vector (Vector Bool 64) 32

/-- The core's state (R20), with two fields of the model's own: the setting the instance was constructed with and the
number of random draws taken. -/
structure State where
  /-- V0 to VF (R21). -/
  v : Vector Byte 16
  /-- The index register I (R23). -/
  i : Word
  /-- The program counter (R24). -/
  pc : Word
  /-- The stack depth, 0 to 16 (R25). -/
  sp : Fin 17
  /-- The return stack; the entries below SP are live (R26). -/
  stack : Vector Word 16
  /-- The delay timer (R27). -/
  dt : Byte
  /-- The sound timer (R28). -/
  st : Byte
  /-- The 4096 bytes of memory (R29, R50). -/
  mem : Memory
  /-- The 64 × 32 pixels (R30). -/
  fb : Framebuffer
  /-- The sixteen key states; true is pressed (R33). -/
  keys : Vector Bool 16
  /-- The "awaiting key" status of Fx0A (R35). -/
  awaiting : Bool
  /-- Running or Halted(reason) (R36). -/
  status : Status
  /-- MODEL'S OWN (log entry 4): the construction parameters, fixed for the instance's life (R7, R270). -/
  config : Config
  /-- MODEL'S OWN (log entry 6): how many random draws Cxkk has taken, the argument of the next one (R8). -/
  draws : Nat
deriving DecidableEq, Repr

/-- The reasons a step stops with a fault: there are none. Every exceptional event of the spec is a halt, which the
machine takes as a next state (R240, R243; log entry 1), so no constructor exists and none is ever raised. -/
inductive Fault
deriving DecidableEq, Repr

/-- The reasons a step is refused. -/
inductive Refusal where
  /-- Raised by an arm of exec whose instruction has no meaning yet. No arm raises it in this model. Safe: the machine
  stops where the hardware goes on. -/
  | notModelled (mnemonic : String)
deriving DecidableEq, Repr

/-- What a meaning answers. -/
abbrev Result := Host.Outcome State Fault Refusal

/-- The state after `construct(config)` (R40, R270): memory as constructed (zero but for the font, so nothing is
listed), registers, timers and stack zero, PC = 0x200, the display clear, no key pressed, running. -/
def construct (c : Config) : State where
  v := Vector.replicate 16 0x00
  i := 0x0000
  pc := 0x0200
  sp := 0
  stack := Vector.replicate 16 0x0000
  dt := 0x00
  st := 0x00
  mem := []
  fb := Vector.replicate 32 (Vector.replicate 64 false)
  keys := Vector.replicate 16 false
  awaiting := false
  status := .running
  config := c
  draws := 0

/-- The machine right after reset: constructed with the default parameters (R7, R40). -/
def State.reset : State := construct defaultConfig

end Sys2Proof.Machine
end

