-- ==== Sys2Proof/Machine/Ops.lean ====
section
/-!
DEFINITION. The shared operations over the state: register and field updates, the program counter, memory with its
canonical form and address check, the return stack, the framebuffer, the keys, and taking a halt.
-/
namespace Sys2Proof.Machine

/-! Registers (R11, R21): every read and write of a general register goes through these two. -/

/-- `V[x]` (R11). -/
def State.getV (s : State) (x : Index) : Byte := s.v[x]

/-- `V[x] <- b` (R11). No register is hardwired (R21). -/
def State.setV (s : State) (x : Index) (b : Byte) : State := { s with v := s.v.set x b }

/-- VF is V[15] (R11, R22). -/
def vf : Index := 15

/-- `I <- a` (R23). -/
def State.setI (s : State) (a : Word) : State := { s with i := a }

/-- `PC <- a` (R24). -/
def State.setPc (s : State) (a : Word) : State := { s with pc := a }

/-- `DT <- b` (R27). -/
def State.setDt (s : State) (b : Byte) : State := { s with dt := b }

/-- `ST <- b` (R28). -/
def State.setSt (s : State) (b : Byte) : State := { s with st := b }

/-- Memory as a whole. -/
def State.setMem (s : State) (m : Memory) : State := { s with mem := m }

/-- The framebuffer as a whole. -/
def State.setFb (s : State) (fb : Framebuffer) : State := { s with fb := fb }

/-- `awaiting <- b` (R35). -/
def State.setAwaiting (s : State) (b : Bool) : State := { s with awaiting := b }

/-- `status <- st` (R36). -/
def State.setStatus (s : State) (st : Status) : State := { s with status := st }

/-- One more random draw has been taken (log entry 6). -/
def State.countDraw (s : State) : State := { s with draws := s.draws + 1 }

/-! The program counter (R24, R102, R112). -/

/-- `nextPC`: the address after the instruction at PC (R14, R101). -/
def State.nextPc (s : State) : Word := s.pc + 2

/-- `PC <- nextPC`, the end of a rule that does not write PC (R102). -/
def State.advance (s : State) : State := s.setPc s.nextPc

/-- A conditional skip: `PC <- PC + 4` where the condition holds, `PC <- nextPC` otherwise (R112, R102). -/
def State.skipIf (s : State) (taken : Bool) : State := if taken then s.setPc (s.pc + 4) else s.advance

/-! Halts, the core's only exceptions (R240 to R248). -/

/-- `raise Halt(reason)`: the step ends with `status` halted and every other piece of state as it was when the step
began (R13, R243). There is no saved register, no mode, no handler and no return from a halt beside it (R247, R248):
only constructing a new instance leaves it (R263, R271). -/
def haltWith (reason : HaltReason) (s : State) : Result := .next (s.setStatus (.halted reason))

/-! Memory (20_memory.md). -/

/-- What an address reads as when memory lists nothing for it: its content after construction, a font byte at
FONT_BASE .. FONT_BASE + 79 and zero elsewhere (R40, R51, R270). -/
def unlistedByte (c : Config) (a : Nat) : Byte :=
  if c.fontBase.toNat ≤ a then c.fontGlyphs.getD (a - c.fontBase.toNat) 0x00 else 0x00

/-- The byte memory holds at an address. -/
def Memory.read (c : Config) (a : Nat) : Memory → Byte
  | [] => unlistedByte c a
  | (a', b') :: rest => if a = a' then b' else Memory.read c a rest

/-- Puts an entry at the front of a memory whose addresses lie above it, unless the address reads so unlisted. -/
def Memory.cons (c : Config) (a : Nat) (b : Byte) (rest : Memory) : Memory :=
  if b = unlistedByte c a then rest else (a, b) :: rest

/-- Memory with one byte stored, in canonical form. -/
def Memory.write (c : Config) (a : Nat) (b : Byte) : Memory → Memory
  | [] => Memory.cons c a b []
  | (a', b') :: rest =>
    if a < a' then Memory.cons c a b ((a', b') :: rest)
    else if a = a' then Memory.cons c a b rest
    else (a', b') :: Memory.write c a b rest

/-- Memory with bytes stored at increasing addresses from `base` on, in that order (R61). -/
def Memory.writeAll (c : Config) : Nat → List Byte → Memory → Memory
  | _, [], m => m
  | base, b :: rest, m => Memory.writeAll c (base + 1) rest (Memory.write c base b m)

/-- The canonical form from `lo` on: addresses at or above `lo`, strictly rising, below 0x1000 (R50), and no entry equal
to what its address reads as unlisted. -/
def Memory.wfFrom (c : Config) (lo : Nat) : Memory → Bool
  | [] => true
  | (a, b) :: rest => decide (lo ≤ a) && decide (a < 0x1000) && (b != unlistedByte c a) && Memory.wfFrom c (a + 1) rest

/-- Memory is in canonical form. -/
def Memory.wf (c : Config) (m : Memory) : Bool := Memory.wfFrom c 0 m

/-- The byte at an address of the memory bus. -/
def State.byteAt (s : State) (a : Nat) : Byte := Memory.read s.config a s.mem

/-- The address check of R53 and R58, made for every address an instruction touches before any is accessed: `len`
bytes from `base` on lie in 0x000 to 0xFFF. Addresses are exact and do not wrap. Without bytes there is no access. -/
def addressesOk (base len : Nat) : Bool := len == 0 || base + len ≤ 0x1000

/-- The bytes at `base` .. `base + len - 1`, without a check. -/
def State.bytesAt (s : State) (base len : Nat) : List Byte := (List.range len).map fun k => s.byteAt (base + k)

/-- `MemRead` of `len` bytes from `base` on, or none where an address is out of range (R12, R53, R58). -/
def State.readBlock (s : State) (base len : Nat) : Option (List Byte) :=
  if addressesOk base len then some (s.bytesAt base len) else none

/-- `MemWrite` of bytes from `base` on, or none, with nothing written, where an address is out of range (R12, R53,
R58). Every address in range can be written (R60). -/
def State.writeBlock (s : State) (base : Nat) (bytes : List Byte) : Option State :=
  if addressesOk base bytes.length then some (s.setMem (Memory.writeAll s.config base bytes s.mem)) else none

/-! The return stack (R26). -/

/-- A push: `stack[SP] <- ret; SP <- SP + 1`, or none where SP = 16. -/
def State.pushReturn (s : State) (ret : Word) : Option State :=
  if h : s.sp.val < 16 then some { s with stack := s.stack.set s.sp.val ret, sp := ⟨s.sp.val + 1, by omega⟩ } else none

/-- A pop: `SP <- SP - 1`, then the entry `stack[SP]`, or none where SP = 0. The popped entry keeps its value. -/
def State.popReturn (s : State) : Option (Word × State) :=
  if h : 0 < s.sp.val then some (s.stack[s.sp.val - 1], { s with sp := ⟨s.sp.val - 1, by omega⟩ }) else none

/-! The framebuffer (R30). -/

/-- `fb[x, y]`. -/
def Framebuffer.pixel (fb : Framebuffer) (x : Fin 64) (y : Fin 32) : Bool := fb[y][x]

/-- `fb[x, y] <- b`. -/
def Framebuffer.setPixel (fb : Framebuffer) (x : Fin 64) (y : Fin 32) (b : Bool) : Framebuffer :=
  fb.set y (fb[y].set x b)

/-- The display with every pixel unset (R161). -/
def Framebuffer.blank : Framebuffer := Vector.replicate 32 (Vector.replicate 64 false)

/-- A column on the wrapped grid: modulo 64 (R164). -/
def wrapColumn (n : Nat) : Fin 64 := ⟨n % 64, Nat.mod_lt _ (by decide)⟩

/-- A row on the wrapped grid: modulo 32 (R164). -/
def wrapRow (n : Nat) : Fin 32 := ⟨n % 32, Nat.mod_lt _ (by decide)⟩

/-- A blit in progress: the display so far and whether a pixel has gone from set to unset (R165). -/
abbrev Blit := Framebuffer × Bool

/-- One sprite bit of 1: the pixel flips, and flipping a set pixel is a collision (R162, R165). -/
def blitPixel (x : Fin 64) (y : Fin 32) (d : Blit) : Blit :=
  (d.1.setPixel x y (!d.1.pixel x y), d.2 || d.1.pixel x y)

/-- The sprite bit of column offset `col`: bit 7 is the leftmost pixel (R163). -/
def spriteBit (b : Byte) (col : Nat) : Bool := b.getLsbD (7 - col)

/-- One sprite row, its eight columns from left to right, on row `y` (R162). -/
def blitRow (x0 : Nat) (y : Fin 32) (b : Byte) (d : Blit) : Blit :=
  (List.range 8).foldl (fun d col => if spriteBit b col then blitPixel (wrapColumn (x0 + col)) y d else d) d

/-- The sprite rows from row offset `row` on, top to bottom (R162). -/
def blitRows (x0 y0 : Nat) : Nat → List Byte → Blit → Blit
  | _, [], d => d
  | row, b :: rest, d => blitRows x0 y0 (row + 1) rest (blitRow x0 (wrapRow (y0 + row)) b d)

/-- The XOR blit of a whole sprite at (x0, y0): the display after it and the collision (R162, R164, R165). -/
def blitSprite (x0 y0 : Nat) (sprite : List Byte) (fb : Framebuffer) : Blit := blitRows x0 y0 0 sprite (fb, false)

/-! The keys (R33, R180). -/

/-- `pressed(v)`: v names a key, and that key is pressed (R180). -/
def State.pressed (s : State) (v : Byte) : Bool := if h : v.toNat < 16 then s.keys[v.toNat] else false

/-- The lowest-numbered pressed key, if a key is pressed (R183). -/
def State.lowestPressed (s : State) : Option Index := (List.finRange 16).find? fun k => s.keys[k]

end Sys2Proof.Machine
end

