-- ==== Sys2Proof/Machine/Operands.lean ====
section
/-!
DEFINITION. The operand forms of the instructions: immediates, the registers a quirk selects, the blocks of memory at
I, the font address, the decimal digits, and the register range V0 .. V[x].
-/
namespace Sys2Proof.Machine

/-- `trunc_8`: a result narrowed to a general register (R10, R143). -/
def trunc8 (n : Nat) : Byte := BitVec.ofNat 8 n

/-- `trunc_16`: a result narrowed to I or PC (R10). -/
def trunc16 (n : Nat) : Word := BitVec.ofNat 16 n

/-- `zext_16(nnn)`: a 12-bit address as a 16-bit value (R73). -/
def zext16 (nnn : Addr12) : Word := nnn.setWidth 16

/-- The register a shift reads: V[y] under QUIRK_SHIFT_VY, V[x] otherwise (R138, R140). -/
def shiftSource (x y : Index) (s : State) : Byte := if s.config.quirkShiftVy then s.getV y else s.getV x

/-- The offset of Bnnn: V[x] with x = op[11:8] under QUIRK_JUMP_VX, V0 otherwise (R107). -/
def jumpOffset (x : Index) (s : State) : Byte := if s.config.quirkJumpVx then s.getV x else s.getV 0

/-- The address of the glyph of a hex digit: FONT_BASE + 5 · (v & 0x0F) (R211). -/
def glyphAddress (v : Byte) (s : State) : Word := trunc16 (s.config.fontBase.toNat + 5 * (v &&& 0x0F).toNat)

/-- The decimal digits of a byte, hundreds first (R212). -/
def bcdDigits (v : Byte) : List Byte := [trunc8 (v.toNat / 100), trunc8 (v.toNat / 10 % 10), trunc8 (v.toNat % 10)]

/-- The sprite Dxyn reads: n bytes from I on, or none where an address is out of range (R162). -/
def spriteAtI (n : Nibble) (s : State) : Option (List Byte) := s.readBlock s.i.toNat n.toNat

/-- V0 .. V[x], the registers Fx55 stores, in that order (R213). -/
def registersTo (x : Index) (s : State) : List Byte := s.v.toList.take (x.val + 1)

/-- The bytes Fx65 loads: x + 1 bytes from I on, or none where an address is out of range (R214). -/
def registerBlockAtI (x : Index) (s : State) : Option (List Byte) := s.readBlock s.i.toNat (x.val + 1)

/-- `V[k] <- b` for consecutive registers from `k` on (R214). -/
def loadRegisters : Nat → List Byte → State → State
  | _, [], s => s
  | k, b :: rest, s => loadRegisters (k + 1) rest (if h : k < 16 then s.setV ⟨k, h⟩ b else s)

/-- `if QUIRK_MEM_INCREMENT_I: I <- trunc_16(I + x + 1)` (R213, R214). -/
def incrementI (x : Index) (s : State) : State :=
  if s.config.quirkMemIncrementI then s.setI (trunc16 (s.i.toNat + x.val + 1)) else s

end Sys2Proof.Machine
end

