-- ==== Sys2Proof/Machine/Flags.lean ====
section
/-!
DEFINITION. The flag computations and the order of the result and the flag (10_state.md R22; 41_load_and_alu.md R143,
R144). VF is the only flag; a flag is 1 or 0.
-/
namespace Sys2Proof.Machine

/-- A condition as the byte VF holds: 1 or 0 (R22). -/
def flagByte (b : Bool) : Byte := if b then 0x01 else 0x00

/-- The carry of an addition: the exact sum exceeds 255 (R136). -/
def carryFlag (a b : Byte) : Byte := flagByte (decide (a.toNat + b.toNat > 255))

/-- The not-borrow of the subtraction a - b: a ≥ b (R137, R139). -/
def notBorrowFlag (a b : Byte) : Byte := flagByte (decide (a.toNat ≥ b.toNat))

/-- The bit a shift right by one shifts out: bit 0 (R138). -/
def shiftedOutRight (src : Byte) : Byte := flagByte (src.getLsbD 0)

/-- The bit a shift left by one shifts out: bit 7 (R140). -/
def shiftedOutLeft (src : Byte) : Byte := flagByte (src.getLsbD 7)

/-- The sum modulo 256 (R136, R143). -/
def sum8 (a b : Byte) : Byte := trunc8 (a.toNat + b.toNat)

/-- The difference modulo 256: (a - b + 256) mod 256 (R137, R143). -/
def difference8 (a b : Byte) : Byte := trunc8 (a.toNat + 256 - b.toNat)

/-- `V[x] <- result; VF <- flag`, in that order: where x = F the flag is what VF holds afterwards (R144; the
spec's decision D8, log entry 17). -/
def writeResultAndFlag (x : Index) (result flag : Byte) (s : State) : State := (s.setV x result).setV vf flag

/-- `V[x] <- result; if QUIRK_LOGIC_VF_RESET: VF <- 0` (R133 to R135, R144). -/
def writeLogicResult (x : Index) (result : Byte) (s : State) : State :=
  if s.config.quirkLogicVfReset then writeResultAndFlag x result 0x00 s else s.setV x result

end Sys2Proof.Machine
end

