-- ==== Sys2Proof/Machine/Control.lean ====
section
/-!
DEFINITION. Control transfer and the register and immediate skips (40_step_and_control.md R104 to R112). A jump, call
or return never checks its target: the next fetch does (R101).
-/
namespace Sys2Proof.Machine

/-- 00EE `RET` (R104). -/
def execRet (s : State) : Result :=
  match s.popReturn with
  | some (ret, t) => .next (t.setPc ret)
  | none => haltWith .stackUnderflow s

/-- 1nnn `JP nnn` (R105). -/
def execJp (nnn : Addr12) (s : State) : Result := .next (s.setPc (zext16 nnn))

/-- 2nnn `CALL nnn`: it pushes nextPC (R106). -/
def execCall (nnn : Addr12) (s : State) : Result :=
  match s.pushReturn s.nextPc with
  | some t => .next (t.setPc (zext16 nnn))
  | none => haltWith .stackOverflow s

/-- Bnnn `JP V0, nnn`: the sum is exact, not reduced modulo 0x1000 (R107). -/
def execJpV0 (x : Index) (nnn : Addr12) (s : State) : Result :=
  .next (s.setPc (trunc16 (nnn.toNat + (jumpOffset x s).toNat)))

/-- 3xkk `SE Vx, kk` (R108). -/
def execSeImm (x : Index) (kk : Byte) (s : State) : Result := .next (s.skipIf (s.getV x == kk))

/-- 4xkk `SNE Vx, kk` (R109). -/
def execSneImm (x : Index) (kk : Byte) (s : State) : Result := .next (s.skipIf (s.getV x != kk))

/-- 5xy0 `SE Vx, Vy` (R110). -/
def execSeReg (x y : Index) (s : State) : Result := .next (s.skipIf (s.getV x == s.getV y))

/-- 9xy0 `SNE Vx, Vy` (R111). -/
def execSneReg (x y : Index) (s : State) : Result := .next (s.skipIf (s.getV x != s.getV y))

end Sys2Proof.Machine
end

