-- ==== Sys2Proof/Machine/Display.lean ====
section
/-!
DEFINITION. Clear and sprite blit (42_display.md R160 to R165).
-/
namespace Sys2Proof.Machine

/-- 00E0 `CLS` (R161). -/
def execCls (s : State) : Result := .next (s.setFb Framebuffer.blank).advance

/-- Dxyn `DRW Vx, Vy, n`: the coordinates are read before VF is written, the addresses are checked before any change,
and VF takes the collision last (R162, R276). -/
def execDrw (x y : Index) (n : Nibble) (s : State) : Result :=
  match spriteAtI n s with
  | some sprite =>
    let d := blitSprite (s.getV x).toNat (s.getV y).toNat sprite s.fb
    .next ((s.setFb d.1).setV vf (flagByte d.2)).advance
  | none => haltWith .addressOutOfRange s

end Sys2Proof.Machine
end

