-- ==== Sys2Proof/Machine/IndexMemory.lean ====
section
/-!
DEFINITION. Index arithmetic, font lookup, BCD, register dump and load (45_index_and_memory.md R210 to R214).
-/
namespace Sys2Proof.Machine

/-- Fx1E `ADD I, Vx`: I wraps modulo 2^16, VF is unchanged (R210). -/
def execAddIVx (x : Index) (s : State) : Result := .next (s.setI (trunc16 (s.i.toNat + (s.getV x).toNat))).advance

/-- Fx29 `LD F, Vx` (R211). -/
def execLdFVx (x : Index) (s : State) : Result := .next (s.setI (glyphAddress (s.getV x) s)).advance

/-- Fx33 `LD B, Vx`: the three digits at I, I + 1, I + 2 (R212). -/
def execLdBVx (x : Index) (s : State) : Result :=
  match s.writeBlock s.i.toNat (bcdDigits (s.getV x)) with
  | some t => .next t.advance
  | none => haltWith .addressOutOfRange s

/-- Fx55 `LD [I], Vx` (R213). -/
def execStoreRegs (x : Index) (s : State) : Result :=
  match s.writeBlock s.i.toNat (registersTo x s) with
  | some t => .next (incrementI x t).advance
  | none => haltWith .addressOutOfRange s

/-- Fx65 `LD Vx, [I]` (R214). -/
def execLoadRegs (x : Index) (s : State) : Result :=
  match registerBlockAtI x s with
  | some bytes => .next (incrementI x (loadRegisters 0 bytes s)).advance
  | none => haltWith .addressOutOfRange s

end Sys2Proof.Machine
end

