-- ==== Sys2Proof/Machine/Keypad.lean ====
section
/-!
DEFINITION. The keypad instructions (43_keypad.md R180 to R183). No instruction changes a key (R33).
-/
namespace Sys2Proof.Machine

/-- Ex9E `SKP Vx` (R181). -/
def execSkp (x : Index) (s : State) : Result := .next (s.skipIf (s.pressed (s.getV x)))

/-- ExA1 `SKNP Vx` (R182). -/
def execSknp (x : Index) (s : State) : Result := .next (s.skipIf (!s.pressed (s.getV x)))

/-- Fx0A `LD Vx, K`: it loads the lowest-numbered pressed key, or waits with PC unchanged (R183). -/
def execLdVxK (x : Index) (s : State) : Result :=
  match s.lowestPressed with
  | some k => .next ((s.setV x (trunc8 k.val)).setAwaiting false).advance
  | none => .next (s.setAwaiting true)

end Sys2Proof.Machine
end

