-- ==== Sys2Proof/Machine/LoadAlu.lean ====
section
/-!
DEFINITION. Immediate loads, the register ALU, the index load and the random byte (41_load_and_alu.md R130 to R142).
None of them can halt.
-/
namespace Sys2Proof.Machine

/-- 6xkk `LD Vx, kk` (R130). -/
def execLdImm (x : Index) (kk : Byte) (s : State) : Result := .next (s.setV x kk).advance

/-- 7xkk `ADD Vx, kk`: no flag (R131). -/
def execAddImm (x : Index) (kk : Byte) (s : State) : Result := .next (s.setV x (sum8 (s.getV x) kk)).advance

/-- 8xy0 `LD Vx, Vy` (R132). -/
def execLdReg (x y : Index) (s : State) : Result := .next (s.setV x (s.getV y)).advance

/-- 8xy1 `OR Vx, Vy` (R133). -/
def execOrReg (x y : Index) (s : State) : Result := .next (writeLogicResult x (s.getV x ||| s.getV y) s).advance

/-- 8xy2 `AND Vx, Vy` (R134). -/
def execAndReg (x y : Index) (s : State) : Result := .next (writeLogicResult x (s.getV x &&& s.getV y) s).advance

/-- 8xy3 `XOR Vx, Vy` (R135). -/
def execXorReg (x y : Index) (s : State) : Result := .next (writeLogicResult x (s.getV x ^^^ s.getV y) s).advance

/-- 8xy4 `ADD Vx, Vy`: VF is the carry (R136). -/
def execAddReg (x y : Index) (s : State) : Result :=
  .next (writeResultAndFlag x (sum8 (s.getV x) (s.getV y)) (carryFlag (s.getV x) (s.getV y)) s).advance

/-- 8xy5 `SUB Vx, Vy`: V[x] - V[y], VF is the not-borrow (R137). -/
def execSubReg (x y : Index) (s : State) : Result :=
  .next (writeResultAndFlag x (difference8 (s.getV x) (s.getV y)) (notBorrowFlag (s.getV x) (s.getV y)) s).advance

/-- 8xy6 `SHR Vx, Vy`: VF is the bit shifted out (R138). -/
def execShr (x y : Index) (s : State) : Result :=
  .next (writeResultAndFlag x (shiftSource x y s >>> 1) (shiftedOutRight (shiftSource x y s)) s).advance

/-- 8xy7 `SUBN Vx, Vy`: V[y] - V[x], VF is the not-borrow (R139). -/
def execSubnReg (x y : Index) (s : State) : Result :=
  .next (writeResultAndFlag x (difference8 (s.getV y) (s.getV x)) (notBorrowFlag (s.getV y) (s.getV x)) s).advance

/-- 8xyE `SHL Vx, Vy`: VF is the bit shifted out (R140). -/
def execShl (x y : Index) (s : State) : Result :=
  .next (writeResultAndFlag x (shiftSource x y s <<< 1) (shiftedOutLeft (shiftSource x y s)) s).advance

/-- Annn `LD I, nnn` (R141). -/
def execLdI (nnn : Addr12) (s : State) : Result := .next (s.setI (zext16 nnn)).advance

/-- `V[x] <- r & kk` for the step's draw r (R142), which counts as taken. -/
def rndWith (r : Byte) (x : Index) (kk : Byte) (s : State) : Result := .next (s.setV x (r &&& kk)).countDraw.advance

/-- Cxkk `RND Vx, kk`: the draw is a free value (R8, R142; log entry 6). -/
def execRnd (x : Index) (kk : Byte) (s : State) : Result := rndWith (Config.randomDraw s.draws) x kk s

end Sys2Proof.Machine
end

