-- ==== Sys2Proof/Machine/Timers.lean ====
section
/-!
DEFINITION. The timer instructions (44_timers.md R200 to R202). The countdown itself is the host's `tick`
(Machine/HostOps.lean).
-/
namespace Sys2Proof.Machine

/-- Fx07 `LD Vx, DT` (R200). -/
def execLdVxDt (x : Index) (s : State) : Result := .next (s.setV x s.dt).advance

/-- Fx15 `LD DT, Vx` (R201). -/
def execLdDtVx (x : Index) (s : State) : Result := .next (s.setDt (s.getV x)).advance

/-- Fx18 `LD ST, Vx` (R202). -/
def execLdStVx (x : Index) (s : State) : Result := .next (s.setSt (s.getV x)).advance

end Sys2Proof.Machine
end

