-- ==== Sys2Proof/Syntax.lean ====
section
/-!
DEFINITION. The 34 instructions of 30_encoding.md R74, one constructor per row of spec/opcode_table.json, in the
table's order. The fields are those of R72: `x` and `y` select registers, `kk`, `nnn` and `n` are unsigned
immediates (R73).
-/
namespace Sys2Proof

/-- The instructions of R74. There are no pseudo-instructions: each constructor stands for exactly one encoding
pattern (R83). -/
inductive Instr where
  /-- 00E0 `CLS` (R161). -/
  | cls
  /-- 00EE `RET` (R104). -/
  | ret
  /-- 1nnn `JP nnn` (R105). -/
  | jp (nnn : Addr12)
  /-- 2nnn `CALL nnn` (R106). -/
  | call (nnn : Addr12)
  /-- 3xkk `SE Vx, kk` (R108). -/
  | seImm (x : Index) (kk : Byte)
  /-- 4xkk `SNE Vx, kk` (R109). -/
  | sneImm (x : Index) (kk : Byte)
  /-- 5xy0 `SE Vx, Vy` (R110). -/
  | seReg (x y : Index)
  /-- 6xkk `LD Vx, kk` (R130). -/
  | ldImm (x : Index) (kk : Byte)
  /-- 7xkk `ADD Vx, kk` (R131). -/
  | addImm (x : Index) (kk : Byte)
  /-- 8xy0 `LD Vx, Vy` (R132). -/
  | ldReg (x y : Index)
  /-- 8xy1 `OR Vx, Vy` (R133). -/
  | orReg (x y : Index)
  /-- 8xy2 `AND Vx, Vy` (R134). -/
  | andReg (x y : Index)
  /-- 8xy3 `XOR Vx, Vy` (R135). -/
  | xorReg (x y : Index)
  /-- 8xy4 `ADD Vx, Vy` (R136). -/
  | addReg (x y : Index)
  /-- 8xy5 `SUB Vx, Vy` (R137). -/
  | subReg (x y : Index)
  /-- 8xy6 `SHR Vx, Vy` (R138). -/
  | shr (x y : Index)
  /-- 8xy7 `SUBN Vx, Vy` (R139). -/
  | subnReg (x y : Index)
  /-- 8xyE `SHL Vx, Vy` (R140). -/
  | shl (x y : Index)
  /-- 9xy0 `SNE Vx, Vy` (R111). -/
  | sneReg (x y : Index)
  /-- Annn `LD I, nnn` (R141). -/
  | ldI (nnn : Addr12)
  /-- Bnnn `JP V0, nnn` (R107). The field `x` overlaps `nnn`: it is op[11:8], the register that
  `QUIRK_JUMP_VX` selects, and WellFormed.lean checks that it is (log entry 13). -/
  | jpV0 (x : Index) (nnn : Addr12)
  /-- Cxkk `RND Vx, kk` (R142). -/
  | rnd (x : Index) (kk : Byte)
  /-- Dxyn `DRW Vx, Vy, n` (R162). -/
  | drw (x y : Index) (n : Nibble)
  /-- Ex9E `SKP Vx` (R181). -/
  | skp (x : Index)
  /-- ExA1 `SKNP Vx` (R182). -/
  | sknp (x : Index)
  /-- Fx07 `LD Vx, DT` (R200). -/
  | ldVxDt (x : Index)
  /-- Fx0A `LD Vx, K` (R183). -/
  | ldVxK (x : Index)
  /-- Fx15 `LD DT, Vx` (R201). -/
  | ldDtVx (x : Index)
  /-- Fx18 `LD ST, Vx` (R202). -/
  | ldStVx (x : Index)
  /-- Fx1E `ADD I, Vx` (R210). -/
  | addIVx (x : Index)
  /-- Fx29 `LD F, Vx` (R211). -/
  | ldFVx (x : Index)
  /-- Fx33 `LD B, Vx` (R212). -/
  | ldBVx (x : Index)
  /-- Fx55 `LD [I], Vx` (R213). -/
  | storeRegs (x : Index)
  /-- Fx65 `LD Vx, [I]` (R214). -/
  | loadRegs (x : Index)
deriving DecidableEq, Repr

end Sys2Proof
end

