-- ==== Sys2Proof/WellFormed.lean ====
section
/-!
DEFINITION. The checks that the types do not make: the overlapping fields of Bnnn (R72, R107), the place of the font
(R7, R52), the size of a ROM (R256) and the range of the pressed-key signal (R34). Every other field of an instruction
has exactly the width of its encoding, so every value of it has one (R73).
-/
namespace Sys2Proof

/-- An instruction is well formed when its fields are those of one word. Only Bnnn has fields that overlap: its offset
register is x = op[11:8], the top nibble of nnn (R72, R107). -/
def Instr.wf : Instr → Bool
  | .cls => true
  | .ret => true
  | .jp _ => true
  | .call _ => true
  | .seImm _ _ => true
  | .sneImm _ _ => true
  | .seReg _ _ => true
  | .ldImm _ _ => true
  | .addImm _ _ => true
  | .ldReg _ _ => true
  | .orReg _ _ => true
  | .andReg _ _ => true
  | .xorReg _ _ => true
  | .addReg _ _ => true
  | .subReg _ _ => true
  | .shr _ _ => true
  | .subnReg _ _ => true
  | .shl _ _ => true
  | .sneReg _ _ => true
  | .ldI _ => true
  | .jpV0 x nnn => x.val == nnn.toNat / 256
  | .rnd _ _ => true
  | .drw _ _ _ => true
  | .skp _ => true
  | .sknp _ => true
  | .ldVxDt _ => true
  | .ldVxK _ => true
  | .ldDtVx _ => true
  | .ldStVx _ => true
  | .addIVx _ => true
  | .ldFVx _ => true
  | .ldBVx _ => true
  | .storeRegs _ => true
  | .loadRegs _ => true

/-- The font lies inside 0x000 to 0x1FF: FONT_BASE + 80 ≤ 0x200 (R7, R52). -/
def Config.wf (c : Config) : Bool := c.fontBase.toNat + 80 ≤ 0x200

/-- A ROM fits between 0x200 and 0xFFF: at most 0xE00 bytes (R256). -/
def romFits (bytes : List Byte) : Bool := bytes.length ≤ 0xE00

/-- The pressed-key signal names a key or none: 0 to 0xF (R34). -/
def keySignalOk (signal : Byte) : Bool := signal.toNat ≤ 0xF

end Sys2Proof
end

