-- ==== Sys2Proof/Decode.lean ====
section
/-!
DEFINITION. Decoding (30_encoding.md R70 to R81), total on every word and on every byte list, and after it the
encoder and the opcode table, each written from R74. Decoding depends on the word alone: no configuration and no mode
changes it (R81).
-/
namespace Sys2Proof

/-! The fields of an instruction word (R72). -/

/-- The major class `c` = op[15:12]. -/
def fieldC (op : Word) : Nibble := op.extractLsb' 12 4

/-- The first register index `x` = op[11:8]. -/
def fieldX (op : Word) : Index := (op.extractLsb' 8 4).toFin

/-- The second register index `y` = op[7:4]. -/
def fieldY (op : Word) : Index := (op.extractLsb' 4 4).toFin

/-- The 4-bit immediate or sub-opcode `n` = op[3:0]. -/
def fieldN (op : Word) : Nibble := op.extractLsb' 0 4

/-- The 8-bit immediate or sub-opcode `kk` = op[7:0]. -/
def fieldKK (op : Word) : Byte := op.extractLsb' 0 8

/-- The 12-bit address `nnn` = op[11:0]. -/
def fieldNNN (op : Word) : Addr12 := op.extractLsb' 0 12

/-- Class 0 (R75): only 0x00E0 and 0x00EE are instructions. -/
def decodeClass0 (op : Word) : Option Instr :=
  match fieldNNN op with
  | 0x0E0#12 => some .cls
  | 0x0EE#12 => some .ret
  | _ => none

/-- Class 8 (R76): the variant is selected by the low nibble. -/
def decodeClass8 (op : Word) : Option Instr :=
  match fieldN op with
  | 0x0#4 => some (.ldReg (fieldX op) (fieldY op))
  | 0x1#4 => some (.orReg (fieldX op) (fieldY op))
  | 0x2#4 => some (.andReg (fieldX op) (fieldY op))
  | 0x3#4 => some (.xorReg (fieldX op) (fieldY op))
  | 0x4#4 => some (.addReg (fieldX op) (fieldY op))
  | 0x5#4 => some (.subReg (fieldX op) (fieldY op))
  | 0x6#4 => some (.shr (fieldX op) (fieldY op))
  | 0x7#4 => some (.subnReg (fieldX op) (fieldY op))
  | 0xE#4 => some (.shl (fieldX op) (fieldY op))
  | _ => none

/-- Class E (R77): selected by kk. -/
def decodeClassE (op : Word) : Option Instr :=
  match fieldKK op with
  | 0x9E#8 => some (.skp (fieldX op))
  | 0xA1#8 => some (.sknp (fieldX op))
  | _ => none

/-- Class F (R78): selected by kk. -/
def decodeClassF (op : Word) : Option Instr :=
  match fieldKK op with
  | 0x07#8 => some (.ldVxDt (fieldX op))
  | 0x0A#8 => some (.ldVxK (fieldX op))
  | 0x15#8 => some (.ldDtVx (fieldX op))
  | 0x18#8 => some (.ldStVx (fieldX op))
  | 0x1E#8 => some (.addIVx (fieldX op))
  | 0x29#8 => some (.ldFVx (fieldX op))
  | 0x33#8 => some (.ldBVx (fieldX op))
  | 0x55#8 => some (.storeRegs (fieldX op))
  | 0x65#8 => some (.loadRegs (fieldX op))
  | _ => none

/-- Classes 5 and 9 (R74, R79): the low nibble must be 0. -/
def decodeLowNibbleZero (op : Word) (i : Instr) : Option Instr :=
  match fieldN op with
  | 0x0#4 => some i
  | _ => none

/-- The instruction an instruction word stands for, or none where the word is unsupported (R74, R79, R81). -/
def decodeWord (op : Word) : Option Instr :=
  match fieldC op with
  | 0x0#4 => decodeClass0 op
  | 0x1#4 => some (.jp (fieldNNN op))
  | 0x2#4 => some (.call (fieldNNN op))
  | 0x3#4 => some (.seImm (fieldX op) (fieldKK op))
  | 0x4#4 => some (.sneImm (fieldX op) (fieldKK op))
  | 0x5#4 => decodeLowNibbleZero op (.seReg (fieldX op) (fieldY op))
  | 0x6#4 => some (.ldImm (fieldX op) (fieldKK op))
  | 0x7#4 => some (.addImm (fieldX op) (fieldKK op))
  | 0x8#4 => decodeClass8 op
  | 0x9#4 => decodeLowNibbleZero op (.sneReg (fieldX op) (fieldY op))
  | 0xA#4 => some (.ldI (fieldNNN op))
  | 0xB#4 => some (.jpV0 (fieldX op) (fieldNNN op))
  | 0xC#4 => some (.rnd (fieldX op) (fieldKK op))
  | 0xD#4 => some (.drw (fieldX op) (fieldY op) (fieldN op))
  | 0xE#4 => decodeClassE op
  | 0xF#4 => decodeClassF op
  | _ => none

/-! Bytes. An instruction is two bytes, the high byte at the lower address (R54, R70). -/

/-- The word whose high byte is `hi` and whose low byte is `lo` (R54). -/
def wordOfBytes (hi lo : Byte) : Word := hi ++ lo

/-- The byte at the lower address: bits 15..8 (R54). -/
def highByte (op : Word) : Byte := op.extractLsb' 8 8

/-- The byte at the higher address: bits 7..0 (R54). -/
def lowByte (op : Word) : Byte := op.extractLsb' 0 8

/-- Why a list of bytes is no instruction. -/
inductive DecodeReject where
  /-- Fewer than the two bytes of an instruction (R70). -/
  | truncated
  /-- The word matches no row of R74 (R79). -/
  | unsupported (raw : Word)
deriving DecidableEq, Repr

/-- The instruction at the front of a list of bytes and the bytes after it, or the reason there is none. -/
def decode : List Byte → Except DecodeReject (Instr × List Byte)
  | hi :: lo :: rest =>
    match decodeWord (wordOfBytes hi lo) with
    | some i => .ok (i, rest)
    | none => .error (.unsupported (wordOfBytes hi lo))
  | [_] => .error .truncated
  | [] => .error .truncated

/-- The decoder on a word numbered as spec/opcode_table.json numbers it: the table gives one 16-bit word whose bit 0
is the least significant, which the hardware stores high byte first (R54). Bits above `nbits` are zero. -/
def decodeTableWord (nbits w : Nat) : Option Instr :=
  let op : Word := BitVec.ofNat 16 (w % 2 ^ nbits)
  match decode [highByte op, lowByte op] with
  | .ok (i, _) => some i
  | .error _ => none

/-! The encoder, from the rows of R74. -/

/-- A word of the layout c x y n (R71). -/
def packXYN (c : Nibble) (x y : Index) (n : Nibble) : Word := c ++ BitVec.ofFin (w := 4) x ++ BitVec.ofFin (w := 4) y ++ n

/-- A word of the layout c x kk (R71). -/
def packXKK (c : Nibble) (x : Index) (kk : Byte) : Word := c ++ BitVec.ofFin (w := 4) x ++ kk

/-- A word of the layout c nnn (R71). -/
def packNNN (c : Nibble) (nnn : Addr12) : Word := c ++ nnn

/-- The word of an instruction (R74). -/
def encode : Instr → Word
  | .cls => 0x00E0
  | .ret => 0x00EE
  | .jp nnn => packNNN 0x1 nnn
  | .call nnn => packNNN 0x2 nnn
  | .seImm x kk => packXKK 0x3 x kk
  | .sneImm x kk => packXKK 0x4 x kk
  | .seReg x y => packXYN 0x5 x y 0x0
  | .ldImm x kk => packXKK 0x6 x kk
  | .addImm x kk => packXKK 0x7 x kk
  | .ldReg x y => packXYN 0x8 x y 0x0
  | .orReg x y => packXYN 0x8 x y 0x1
  | .andReg x y => packXYN 0x8 x y 0x2
  | .xorReg x y => packXYN 0x8 x y 0x3
  | .addReg x y => packXYN 0x8 x y 0x4
  | .subReg x y => packXYN 0x8 x y 0x5
  | .shr x y => packXYN 0x8 x y 0x6
  | .subnReg x y => packXYN 0x8 x y 0x7
  | .shl x y => packXYN 0x8 x y 0xE
  | .sneReg x y => packXYN 0x9 x y 0x0
  | .ldI nnn => packNNN 0xA nnn
  | .jpV0 _ nnn => packNNN 0xB nnn
  | .rnd x kk => packXKK 0xC x kk
  | .drw x y n => packXYN 0xD x y n
  | .skp x => packXKK 0xE x 0x9E
  | .sknp x => packXKK 0xE x 0xA1
  | .ldVxDt x => packXKK 0xF x 0x07
  | .ldVxK x => packXKK 0xF x 0x0A
  | .ldDtVx x => packXKK 0xF x 0x15
  | .ldStVx x => packXKK 0xF x 0x18
  | .addIVx x => packXKK 0xF x 0x1E
  | .ldFVx x => packXKK 0xF x 0x29
  | .ldBVx x => packXKK 0xF x 0x33
  | .storeRegs x => packXKK 0xF x 0x55
  | .loadRegs x => packXKK 0xF x 0x65

/-- The bytes of an instruction in the order they stand in memory (R54). -/
def encodeBytes (i : Instr) : List Byte := [highByte (encode i), lowByte (encode i)]

/-! The opcode table as rows of a mask and a pattern, to hold the decoder against (R74, R80). -/

/-- One row of the opcode map: a word belongs to it when its bits under `mask` are `pattern`. -/
structure OpcodeRow where
  pattern : Word
  mask : Word
deriving DecidableEq, Repr

/-- The word belongs to the row. -/
def OpcodeRow.matchesWord (r : OpcodeRow) (op : Word) : Bool := op &&& r.mask == r.pattern

/-- The row of R74 each instruction belongs to. -/
def opcodeRow : Instr → OpcodeRow
  | .cls => ⟨0x00E0, 0xFFFF⟩
  | .ret => ⟨0x00EE, 0xFFFF⟩
  | .jp _ => ⟨0x1000, 0xF000⟩
  | .call _ => ⟨0x2000, 0xF000⟩
  | .seImm _ _ => ⟨0x3000, 0xF000⟩
  | .sneImm _ _ => ⟨0x4000, 0xF000⟩
  | .seReg _ _ => ⟨0x5000, 0xF00F⟩
  | .ldImm _ _ => ⟨0x6000, 0xF000⟩
  | .addImm _ _ => ⟨0x7000, 0xF000⟩
  | .ldReg _ _ => ⟨0x8000, 0xF00F⟩
  | .orReg _ _ => ⟨0x8001, 0xF00F⟩
  | .andReg _ _ => ⟨0x8002, 0xF00F⟩
  | .xorReg _ _ => ⟨0x8003, 0xF00F⟩
  | .addReg _ _ => ⟨0x8004, 0xF00F⟩
  | .subReg _ _ => ⟨0x8005, 0xF00F⟩
  | .shr _ _ => ⟨0x8006, 0xF00F⟩
  | .subnReg _ _ => ⟨0x8007, 0xF00F⟩
  | .shl _ _ => ⟨0x800E, 0xF00F⟩
  | .sneReg _ _ => ⟨0x9000, 0xF00F⟩
  | .ldI _ => ⟨0xA000, 0xF000⟩
  | .jpV0 _ _ => ⟨0xB000, 0xF000⟩
  | .rnd _ _ => ⟨0xC000, 0xF000⟩
  | .drw _ _ _ => ⟨0xD000, 0xF000⟩
  | .skp _ => ⟨0xE09E, 0xF0FF⟩
  | .sknp _ => ⟨0xE0A1, 0xF0FF⟩
  | .ldVxDt _ => ⟨0xF007, 0xF0FF⟩
  | .ldVxK _ => ⟨0xF00A, 0xF0FF⟩
  | .ldDtVx _ => ⟨0xF015, 0xF0FF⟩
  | .ldStVx _ => ⟨0xF018, 0xF0FF⟩
  | .addIVx _ => ⟨0xF01E, 0xF0FF⟩
  | .ldFVx _ => ⟨0xF029, 0xF0FF⟩
  | .ldBVx _ => ⟨0xF033, 0xF0FF⟩
  | .storeRegs _ => ⟨0xF055, 0xF0FF⟩
  | .loadRegs _ => ⟨0xF065, 0xF0FF⟩

/-- The 34 rows of R74 in the table's order. -/
def opcodeTable : List OpcodeRow :=
  [⟨0x00E0, 0xFFFF⟩, ⟨0x00EE, 0xFFFF⟩, ⟨0x1000, 0xF000⟩, ⟨0x2000, 0xF000⟩, ⟨0x3000, 0xF000⟩, ⟨0x4000, 0xF000⟩] ++
  [⟨0x5000, 0xF00F⟩, ⟨0x6000, 0xF000⟩, ⟨0x7000, 0xF000⟩] ++
  [⟨0x8000, 0xF00F⟩, ⟨0x8001, 0xF00F⟩, ⟨0x8002, 0xF00F⟩, ⟨0x8003, 0xF00F⟩, ⟨0x8004, 0xF00F⟩] ++
  [⟨0x8005, 0xF00F⟩, ⟨0x8006, 0xF00F⟩, ⟨0x8007, 0xF00F⟩, ⟨0x800E, 0xF00F⟩, ⟨0x9000, 0xF00F⟩] ++
  [⟨0xA000, 0xF000⟩, ⟨0xB000, 0xF000⟩, ⟨0xC000, 0xF000⟩, ⟨0xD000, 0xF000⟩, ⟨0xE09E, 0xF0FF⟩, ⟨0xE0A1, 0xF0FF⟩] ++
  [⟨0xF007, 0xF0FF⟩, ⟨0xF00A, 0xF0FF⟩, ⟨0xF015, 0xF0FF⟩, ⟨0xF018, 0xF0FF⟩, ⟨0xF01E, 0xF0FF⟩] ++
  [⟨0xF029, 0xF0FF⟩, ⟨0xF033, 0xF0FF⟩, ⟨0xF055, 0xF0FF⟩, ⟨0xF065, 0xF0FF⟩]

/-- Two rows overlap when some word belongs to both: they agree on the bits both fix. -/
def OpcodeRow.overlaps (r q : OpcodeRow) : Bool := r.pattern &&& q.mask == q.pattern &&& r.mask

end Sys2Proof
end

