-- ==== Sys2Proof/Machine/Fetch.lean ====
section
/-!
DEFINITION. Fetching an instruction (40_step_and_control.md R101; 20_memory.md R54, R55), and placing one where the
next fetch finds it.
-/
namespace Sys2Proof.Machine

/-- The fetch check: PC in [0x200, 0xFFE] (R101). Odd addresses are legal (R57). -/
def fetchable (pc : Word) : Bool := 0x200 ≤ pc.toNat && pc.toNat ≤ 0xFFE

/-- The word at PC and PC + 1, high byte first, or none where the fetch check fails (R54, R55, R101). -/
def State.fetchWord (s : State) : Option Word :=
  if fetchable s.pc then some (wordOfBytes (s.byteAt s.pc.toNat) (s.byteAt (s.pc.toNat + 1))) else none

/-- The instruction the next step runs, where the fetch check holds and the word is supported. -/
def State.fetchInstr (s : State) : Option Instr := s.fetchWord.bind decodeWord

/-- What a fetch needs: a running engine and a PC that passes the fetch check; a state that has both is unchanged. -/
def State.readyToFetch (s : State) : State :=
  { s with status := .running, pc := if fetchable s.pc then s.pc else 0x0200 }

/-- The state with an instruction word stored at PC, high byte first (R54). -/
def State.placeWord (s : State) (op : Word) : State :=
  s.setMem (Memory.writeAll s.config s.pc.toNat [highByte op, lowByte op] s.mem)

end Sys2Proof.Machine
end

