-- ==== Sys2Proof/Machine/Step.lean ====
section
/-!
DEFINITION. One step: fetch, decode, execute (40_step_and_control.md R100, R101), with the order of checks of
60_exceptions.md R245.
-/
namespace Sys2Proof.Machine

/-- One step of the core (R101). A halted engine answers the same state again (R244). A failed check halts with its
reason (R245); otherwise the instruction's rule runs. What `step` returns to the host beside the state is
`stepOutput` (Machine/HostOps.lean). -/
def step (s : State) : Host.Outcome State Fault Refusal :=
  match s.status with
  | .halted _ => .next s
  | .running =>
    match s.fetchWord with
    | none => haltWith .addressOutOfRange s
    | some op =>
      match decodeWord op with
      | none => haltWith (.unsupportedInstruction op) s
      | some i => exec i s

/-- The state whose next step fetches and runs the instruction whose table word is the low `nbits` bits of `w`
(log entry 11). -/
def State.withFetchWord (s : State) (nbits w : Nat) : State :=
  s.readyToFetch.placeWord (BitVec.ofNat 16 (w % 2 ^ nbits))

end Sys2Proof.Machine
end

