-- ==== Sys2Proof/Machine/HostOps.lean ====
section
/-!
DEFINITION. The host, the second agent (00_scope.md R17; 60_exceptions.md R251 to R263): its operations on the core,
each between two steps (R262), what a step returns to it, and its moves at their allowed times (R255, R261).
-/
namespace Sys2Proof.Machine

/-! What a step returns (R100, R103). -/

/-- The value `step` returns to the host; only its halted part persists in the state (R36). -/
inductive StepOutput where
  | continues
  | awaitingKey
  | halted (reason : HaltReason)
deriving DecidableEq, Repr

/-- The next step executes an Fx0A that finds no key pressed (R103, R183). -/
def State.waitsForKey (s : State) : Bool :=
  match s.fetchInstr with
  | some (.ldVxK _) => s.lowestPressed.isNone
  | _ => false

/-- The output of a step from `s` that ended in `t`: Halted(reason) where `t` is halted, AwaitingKey where an Fx0A
found no key, Continue otherwise (R103). -/
def outputAfter (s t : State) : StepOutput :=
  match t.status with
  | .halted reason => .halted reason
  | .running => if s.waitsForKey then .awaitingKey else .continues

/-- What `step` returns from `s`; none if the step answered no next state, which no step does. -/
def stepOutput (s : State) : Option StepOutput :=
  match step s with
  | .next t => some (outputAfter s t)
  | .fault _ => none
  | .refused _ => none

/-- The rule of an instruction with the step's draw given: only Cxkk reads it (R100). -/
def execWith (r : Byte) (i : Instr) (s : State) : Result :=
  match i with
  | .rnd x kk => rndWith r x kk s
  | _ => exec i s

/-- The spec's `step(r)`: one step whose random draw is r (R100, R101, R255). -/
def stepWith (r : Byte) (s : State) : Result :=
  match s.status, s.fetchInstr with
  | .running, some i => execWith r i s
  | _, _ => step s

/-! The host's operations (R255). -/

/-- Why the host's request is refused; the engine is then unchanged. -/
inductive HostError where
  /-- `load_rom` of more than 0xE00 bytes (R256). -/
  | romTooLong
  /-- A pressed-key signal above 0xF (R34). -/
  | keySignalOutOfRange
  /-- An operation outside its allowed time: the host has no such move (R255, R261). -/
  | notAllowedNow
  /-- A construction whose font does not lie inside 0x000 to 0x1FF (R52; log entry 10). -/
  | fontOutOfRegion
  /-- A step that answers no next state; no step does. -/
  | stepStopped
deriving DecidableEq, Repr

/-- `load_rom(bytes)`: bytes[j] goes to mem[0x200 + j]; a longer ROM changes nothing (R256). -/
def loadRom (bytes : List Byte) (s : State) : Except HostError State :=
  if romFits bytes then .ok (s.setMem (Memory.writeAll s.config 0x200 bytes s.mem)) else .error .romTooLong

/-- `set_key(k, b)` (R258). -/
def setKey (k : Index) (b : Bool) (s : State) : State := { s with keys := s.keys.set k b }

/-- `set_pressed_key_signal(v)`: 0 releases every key, 1 to F presses that key only, more is refused (R34). -/
def setPressedKeySignal (v : Byte) (s : State) : Except HostError State :=
  if keySignalOk v then .ok { s with keys := Vector.ofFn fun k => v.toNat != 0 && k.val == v.toNat }
  else .error .keySignalOutOfRange

/-- One timer counted down by one, floored at 0 (R251). -/
def countDown (t : Byte) : Byte := trunc8 (t.toNat - 1)

/-- `tick()`: both timers count down; nothing else is read or written (R251). -/
def tick (s : State) : State := (s.setDt (countDown s.dt)).setSt (countDown s.st)

/-- `read_display()`: the framebuffer; nothing changes (R259). -/
def readDisplay (s : State) : Framebuffer := s.fb

/-! The host's moves at their allowed times (R255, R261, R262, R273). -/

/-- The operations of R255. -/
inductive HostOp where
  | construct (config : Config)
  | loadRom (bytes : List Byte)
  | start
  | step (draw : Byte)
  | setKey (k : Index) (b : Bool)
  | setPressedKeySignal (v : Byte)
  | tick
  | readDisplay
deriving DecidableEq, Repr

/-- One instance and how far the host has come with it: whether a ROM has been loaded, and whether execution has begun
(log entry 9). -/
structure Session where
  engine : State
  loaded : Bool
  begun : Bool
deriving DecidableEq, Repr

/-- A fresh instance (R263, R270). -/
def Session.fresh (c : Config) : Session := { engine := construct c, loaded := false, begun := false }

/-- One operation of the host, whole, between two others (R262), or the reason it is refused. `load_rom` is allowed
before the first step only, `start` after a load, everything else at any time (R255). -/
def Session.perform (op : HostOp) (p : Session) : Except HostError Session :=
  match op with
  | .construct c => if c.wf then .ok (Session.fresh c) else .error .fontOutOfRegion
  | .loadRom bytes =>
    if p.begun then .error .notAllowedNow
    else (loadRom bytes p.engine).map fun t => { p with engine := t, loaded := true }
  | .start => if p.loaded then .ok p else .error .notAllowedNow
  | .step r =>
    match stepWith r p.engine with
    | .next t => .ok { p with engine := t, begun := true }
    | .fault _ => .error .stepStopped
    | .refused _ => .error .stepStopped
  | .setKey k b => .ok { p with engine := setKey k b p.engine }
  | .setPressedKeySignal v => (setPressedKeySignal v p.engine).map fun t => { p with engine := t }
  | .tick => .ok { p with engine := tick p.engine }
  | .readDisplay => .ok p

/-- The sessions the host's moves reach (R261): a fresh instance with its font in place, and any operation after it. -/
inductive Session.Reachable : Session → Prop where
  | fresh (c : Config) (h : c.wf = true) : Session.Reachable (Session.fresh c)
  | perform (op : HostOp) (p q : Session) (hp : Session.Reachable p) (h : p.perform op = .ok q) : Session.Reachable q

end Sys2Proof.Machine
end

