-- ==== Sys2Proof/Safety.lean ====
section
/-!
DEFINITION. What holds of every state a run reaches, in the words statements use: the invariants of 10_state.md R41
and 70_reset_and_hazards.md R279.
-/
namespace Sys2Proof

/-- The register an instruction names as its destination (R22). Fx65 names a range and stands apart. -/
def Instr.destination : Instr → Option Index
  | .ldImm x _ | .addImm x _ | .rnd x _ => some x
  | .ldReg x _ | .orReg x _ | .andReg x _ | .xorReg x _ | .addReg x _ => some x
  | .subReg x _ | .shr x _ | .subnReg x _ | .shl x _ => some x
  | .ldVxDt x | .ldVxK x => some x
  | _ => none

/-- The instructions that write VF as a flag (R22), under the setting of the instance. -/
def Instr.writesFlag (c : Config) : Instr → Bool
  | .addReg _ _ | .subReg _ _ | .shr _ _ | .subnReg _ _ | .shl _ _ | .drw _ _ _ => true
  | .orReg _ _ | .andReg _ _ | .xorReg _ _ => c.quirkLogicVfReset
  | _ => false

/-- The instructions that access memory beside the fetch (R67). -/
def Instr.accessesMemory : Instr → Bool
  | .drw _ _ _ | .ldBVx _ | .storeRegs _ | .loadRegs _ => true
  | _ => false

/-- The instructions that read a key state (R258). -/
def Instr.readsKeys : Instr → Bool
  | .skp _ | .sknp _ | .ldVxK _ => true
  | _ => false

/-- The instructions whose computation a quirk flag changes (R81). -/
def Instr.hasQuirk : Instr → Bool
  | .jpV0 _ _ | .orReg _ _ | .andReg _ _ | .xorReg _ _ | .shr _ _ | .shl _ _ | .storeRegs _ | .loadRegs _ => true
  | _ => false

/-- How many words of a major class are unsupported (R79). -/
def unsupportedInClass (c : Nat) : Nat :=
  (List.range 0x1000).countP fun n => (decodeWord (BitVec.ofNat 16 (0x1000 * c + n))).isNone

end Sys2Proof

namespace Sys2Proof.Machine

/-- A return address that CALL may have pushed: the address after an instruction that passed the fetch check (R101,
R106). -/
def returnAddressOk (a : Word) : Bool := 0x202 ≤ a.toNat && a.toNat ≤ 0x1000

/-- The machine's invariant: the font lies in its region (R52), memory is in canonical form with every entry in 0x000
to 0xFFF (R50), PC ≤ 0x10FE (R41), and the live stack entries are addresses a CALL pushed (R26, R106). That SP is in
0..16, a pixel 0 or 1 and a timer in 0..255 (R41) holds by the types of State. -/
abbrev State.Inv (s : State) : Prop :=
  s.config.wf = true ∧ Memory.wf s.config s.mem = true ∧ s.pc.toNat ≤ 0x10FE ∧
    ∀ j : Index, j.val < s.sp.val → returnAddressOk s.stack[j] = true

/-- While the core awaits a key it is running and stands at an Fx0A (R279). -/
def State.KeyWaitInv (s : State) : Prop :=
  s.awaiting = true → s.status = .running ∧ ∃ x : Index, s.fetchInstr = some (.ldVxK x)

/-- A session meets the invariants: its engine meets both, and it awaits a key only once a step has run, which is what
keeps `load_rom` from changing memory under a waiting Fx0A (R255, R279). -/
def Session.Inv (p : Session) : Prop :=
  p.engine.Inv ∧ p.engine.KeyWaitInv ∧ (p.engine.awaiting = true → p.begun = true)

/-! Words for what an instruction touches. -/

/-- Every byte of memory reads in `t` as in `s`. -/
def SameMemory (s t : State) : Prop := ∀ a : Nat, t.byteAt a = s.byteAt a

/-- Every byte of memory outside the `len` bytes from `base` on reads in `t` as in `s`. -/
def SameMemoryOutside (base len : Nat) (s t : State) : Prop :=
  ∀ a : Nat, (a < base ∨ base + len ≤ a) → t.byteAt a = s.byteAt a

/-- The byte at an address once `bytes` have been stored from `base` on: the stored byte where there is one, the byte of
`s` elsewhere. -/
def byteAfterStore (base : Nat) (bytes : List Byte) (s : State) (a : Nat) : Byte :=
  if base ≤ a then bytes.getD (a - base) (s.byteAt a) else s.byteAt a

/-- A sprite of height `n` at (V[x], V[y]) read from I has a 1 bit that lands on the pixel (px, py) (R163, R164). -/
def SpriteCovers (s : State) (x y : Index) (n : Nibble) (px : Fin 64) (py : Fin 32) : Prop :=
  ∃ row col : Nat, row < n.toNat ∧ col < 8 ∧ (s.byteAt (s.i.toNat + row)).getLsbD (7 - col) = true ∧
    px.val = ((s.getV x).toNat + col) % 64 ∧ py.val = ((s.getV y).toNat + row) % 32

/-- From `s` to `t` only registers and PC change, PC to the next instruction; VF is the flag `f`, V[x] the result `r`
unless x = F, and every other register is as before (R144; that the flag wins where x = F is the spec's decision D8, log
entry 17). -/
def FlagResult (s t : State) (x : Index) (r f : Nat) : Prop :=
  t = { s with v := t.v, pc := s.pc + 2 } ∧ (t.getV 15).toNat = f ∧ (x ≠ 15 → (t.getV x).toNat = r) ∧
    ∀ j : Index, j ≠ x → j ≠ 15 → t.getV j = s.getV j

/-- From `s` to `t` only registers and PC change, PC to the next instruction; V[x] is the result `r`, VF is 0 under
QUIRK_LOGIC_VF_RESET and otherwise as before unless it is V[x], and every other register is as before (R133, R144; that
the reset wins where x = F is the spec's decision D8, log entry 17). -/
def LogicResult (s t : State) (x : Index) (r : Byte) : Prop :=
  t = { s with v := t.v, pc := s.pc + 2 } ∧ (∀ j : Index, j ≠ x → j ≠ 15 → t.getV j = s.getV j) ∧
    (s.config.quirkLogicVfReset = true → t.getV 15 = 0x00 ∧ (x ≠ 15 → t.getV x = r)) ∧
    (s.config.quirkLogicVfReset = false → t.getV x = r ∧ (x ≠ 15 → t.getV 15 = s.getV 15))

/-- From `s` to `t` only V[x] and PC change: V[x] to `b`, PC to the next instruction. -/
def RegResult (s t : State) (x : Index) (b : Byte) : Prop :=
  t = { s with v := t.v, pc := s.pc + 2 } ∧ t.getV x = b ∧ ∀ j : Index, j ≠ x → t.getV j = s.getV j

/-- The same instance with its quirk flags set to other values (R7). -/
def State.withQuirks (shiftVy memIncrementI jumpVx logicVfReset : Bool) (s : State) : State :=
  { s with config := { s.config with quirkShiftVy := shiftVy, quirkMemIncrementI := memIncrementI, quirkJumpVx := jumpVx, quirkLogicVfReset := logicVfReset } }

end Sys2Proof.Machine
end

