-- ==== Sys2Proof/Certificates/Slice0/Obligations.lean ====
section
/-!
DEFINITION. The statements for the provers. Each says in its docstring which rules of spec/ it formalises. The words
`FlagResult`, `LogicResult`, `RegResult`, `SpriteCovers`, `SameMemory` and `SameMemoryOutside` are those of
Sys2Proof/Safety.lean. `t = { s with … }` states a whole frame: every field of the state not named is unchanged.
Where a docstring names a decision D<n> (92_eei_decisions.md) or a passage G<n> (93_implementation_defined.md), the
statement rests on a choice that the spec marks as its own, and it is listed as derived. The log entries that follow them:
D1, D2 and every G: 15; D9 to D13: 5; D21: 6; D23: 7; D24: 9; D25, D31: 16; D28: 14; every other D: 17.
-/
open Sys2Proof Sys2Proof.Machine

/-! The instructions, one rule or one shape each: the encoding, the result, the frame, the halts. -/

/-- R161: CLS unsets every pixel, changes nothing else but PC, and completes in every state. The low byte of its
encoding is from general knowledge (G4). -/
def Obligations.ClsUnsetsEveryPixel : Prop :=
  decodeWord 0x00E0 = some .cls ∧
  ∀ s : State, ∃ t : State, exec .cls s = .next t ∧ (∀ x y, t.fb.pixel x y = false) ∧
    t = { s with fb := t.fb, pc := s.pc + 2 }

/-- R104: RET pops the top entry into PC, with nothing added (D7), or halts with StackUnderflow on an empty stack, with
nothing else changed (D5). The low byte EE of its encoding is from general knowledge (G4). -/
def Obligations.RetPopsOrUnderflows : Prop :=
  decodeWord 0x00EE = some .ret ∧
  ∀ s : State,
    (s.sp.val = 0 → exec .ret s = .next { s with status := .halted .stackUnderflow }) ∧
    (∀ k : Index, s.sp.val = k.val + 1 → ∃ t : State, exec .ret s = .next t ∧ t.sp.val = k.val ∧ t.pc = s.stack[k] ∧
      t = { s with sp := t.sp, pc := t.pc })

/-- R105: JP sets PC to nnn and changes nothing else. -/
def Obligations.JpSetsPc : Prop :=
  ∀ nnn : Addr12, decodeWord (BitVec.ofNat 16 (0x1000 + nnn.toNat)) = some (.jp nnn) ∧
  ∀ s : State, ∃ t : State, exec (.jp nnn) s = .next t ∧ t.pc.toNat = nnn.toNat ∧ t = { s with pc := t.pc }

/-- R106: CALL pushes nextPC (D7) and jumps, or halts with StackOverflow when sixteen addresses are held, with nothing
else changed (D5). -/
def Obligations.CallPushesOrOverflows : Prop :=
  ∀ nnn : Addr12, decodeWord (BitVec.ofNat 16 (0x2000 + nnn.toNat)) = some (.call nnn) ∧
  ∀ s : State,
    (s.sp.val = 16 → exec (.call nnn) s = .next { s with status := .halted .stackOverflow }) ∧
    (s.sp.val < 16 → ∃ t : State, exec (.call nnn) s = .next t ∧ t.sp.val = s.sp.val + 1 ∧ t.pc.toNat = nnn.toNat ∧
      (∀ j : Index, t.stack[j] = if j.val = s.sp.val then s.pc + 2 else s.stack[j]) ∧
      t = { s with sp := t.sp, pc := t.pc, stack := t.stack })

/-- R107: Bnnn jumps to the exact sum of nnn and V0, or of nnn and V[x] with x = op[11:8] under QUIRK_JUMP_VX.
The quirk (D11) and the exact sum (D30) are the spec's own decisions. -/
def Obligations.JpV0JumpsToExactSum : Prop :=
  ∀ (x : Index) (nnn : Addr12), x.val = nnn.toNat / 256 →
    decodeWord (BitVec.ofNat 16 (0xB000 + nnn.toNat)) = some (.jpV0 x nnn) ∧
    ∀ s : State, ∃ t : State, exec (.jpV0 x nnn) s = .next t ∧ t = { s with pc := t.pc } ∧
      (s.config.quirkJumpVx = true → t.pc.toNat = nnn.toNat + (s.getV x).toNat) ∧
      (s.config.quirkJumpVx = false → t.pc.toNat = nnn.toNat + (s.getV 0).toNat)

/-- R108, R109: SE and SNE with an immediate add 4 to PC when the condition holds and 2 otherwise. -/
def Obligations.ImmediateSkips : Prop :=
  ∀ (x : Index) (kk : Byte),
    decodeWord (BitVec.ofNat 16 (0x3000 + 0x100 * x.val + kk.toNat)) = some (.seImm x kk) ∧
    decodeWord (BitVec.ofNat 16 (0x4000 + 0x100 * x.val + kk.toNat)) = some (.sneImm x kk) ∧
    ∀ s : State,
      exec (.seImm x kk) s = .next { s with pc := if s.getV x = kk then s.pc + 4 else s.pc + 2 } ∧
      exec (.sneImm x kk) s = .next { s with pc := if s.getV x ≠ kk then s.pc + 4 else s.pc + 2 }

/-- R110, R111: SE and SNE on two registers; with x = y, SE always skips and SNE never does; another low nibble is
unsupported. That the low nibble is 0 is from general knowledge (G4), that it is checked is the spec's decision D2. -/
def Obligations.RegisterSkips : Prop :=
  ∀ x y : Index,
    decodeWord (BitVec.ofNat 16 (0x5000 + 0x100 * x.val + 0x10 * y.val)) = some (.seReg x y) ∧
    decodeWord (BitVec.ofNat 16 (0x9000 + 0x100 * x.val + 0x10 * y.val)) = some (.sneReg x y) ∧
    (∀ n : Nibble, n ≠ 0 →
      decodeWord (BitVec.ofNat 16 (0x5000 + 0x100 * x.val + 0x10 * y.val + n.toNat)) = none ∧
      decodeWord (BitVec.ofNat 16 (0x9000 + 0x100 * x.val + 0x10 * y.val + n.toNat)) = none) ∧
    ∀ s : State,
      exec (.seReg x y) s = .next { s with pc := if s.getV x = s.getV y then s.pc + 4 else s.pc + 2 } ∧
      exec (.sneReg x y) s = .next { s with pc := if s.getV x ≠ s.getV y then s.pc + 4 else s.pc + 2 } ∧
      exec (.seReg x x) s = .next { s with pc := s.pc + 4 } ∧
      exec (.sneReg x x) s = .next { s with pc := s.pc + 2 }

/-- R130, R131: LD Vx, kk and ADD Vx, kk write V[x] alone; the sum wraps modulo 256 and sets no flag. -/
def Obligations.LoadAndAddImmediate : Prop :=
  ∀ (x : Index) (kk : Byte),
    decodeWord (BitVec.ofNat 16 (0x6000 + 0x100 * x.val + kk.toNat)) = some (.ldImm x kk) ∧
    decodeWord (BitVec.ofNat 16 (0x7000 + 0x100 * x.val + kk.toNat)) = some (.addImm x kk) ∧
    ∀ s : State,
      (∃ t : State, exec (.ldImm x kk) s = .next t ∧ RegResult s t x kk) ∧
      (∃ t : State, exec (.addImm x kk) s = .next t ∧ RegResult s t x (s.getV x + kk) ∧
        (t.getV x).toNat = ((s.getV x).toNat + kk.toNat) % 256)

/-- R132 to R135: LD Vx, Vy copies, and with x = y leaves the registers unchanged; OR, AND and XOR, with VF reset only
under QUIRK_LOGIC_VF_RESET. The copy (D1), the reset of VF (D12) and that the reset wins where x = F (D8) are the spec's
own decisions, and the low nibbles 0 to 3 are from general knowledge (G5). -/
def Obligations.CopyAndLogicResults : Prop :=
  ∀ x y : Index,
    decodeWord (BitVec.ofNat 16 (0x8000 + 0x100 * x.val + 0x10 * y.val)) = some (.ldReg x y) ∧
    decodeWord (BitVec.ofNat 16 (0x8001 + 0x100 * x.val + 0x10 * y.val)) = some (.orReg x y) ∧
    decodeWord (BitVec.ofNat 16 (0x8002 + 0x100 * x.val + 0x10 * y.val)) = some (.andReg x y) ∧
    decodeWord (BitVec.ofNat 16 (0x8003 + 0x100 * x.val + 0x10 * y.val)) = some (.xorReg x y) ∧
    ∀ s : State,
      (∃ t : State, exec (.ldReg x y) s = .next t ∧ RegResult s t x (s.getV y)) ∧
      exec (.ldReg x x) s = .next { s with pc := s.pc + 2 } ∧
      (∃ t : State, exec (.orReg x y) s = .next t ∧ LogicResult s t x (s.getV x ||| s.getV y)) ∧
      (∃ t : State, exec (.andReg x y) s = .next t ∧ LogicResult s t x (s.getV x &&& s.getV y)) ∧
      (∃ t : State, exec (.xorReg x y) s = .next t ∧ LogicResult s t x (s.getV x ^^^ s.getV y))

/-- R136, R144: ADD Vx, Vy writes the sum modulo 256 and VF = 1 iff the exact sum exceeds 255. That the flag wins where
x = F is the spec's own decision D8. -/
def Obligations.AddSetsCarry : Prop :=
  ∀ x y : Index, decodeWord (BitVec.ofNat 16 (0x8004 + 0x100 * x.val + 0x10 * y.val)) = some (.addReg x y) ∧
  ∀ s : State, ∃ t : State, exec (.addReg x y) s = .next t ∧
    FlagResult s t x (((s.getV x).toNat + (s.getV y).toNat) % 256)
      (if (s.getV x).toNat + (s.getV y).toNat > 255 then 1 else 0)

/-- R137, R139: SUB and SUBN write the difference modulo 256 and VF = 1 iff there is no borrow. That SUBN's flag is b ≥ a
is the spec's own inference from R137, that the flag wins where x = F its own decision (D8), and the low nibble 7 of SUBN
is from general knowledge (G5). -/
def Obligations.SubtractionsSetNotBorrow : Prop :=
  ∀ x y : Index,
    decodeWord (BitVec.ofNat 16 (0x8005 + 0x100 * x.val + 0x10 * y.val)) = some (.subReg x y) ∧
    decodeWord (BitVec.ofNat 16 (0x8007 + 0x100 * x.val + 0x10 * y.val)) = some (.subnReg x y) ∧
    ∀ s : State,
      (∃ t : State, exec (.subReg x y) s = .next t ∧
        FlagResult s t x ((((s.getV x).toNat : Int) - (s.getV y).toNat) % 256).toNat
          (if s.getV x ≥ s.getV y then 1 else 0)) ∧
      (∃ t : State, exec (.subnReg x y) s = .next t ∧
        FlagResult s t x ((((s.getV y).toNat : Int) - (s.getV x).toNat) % 256).toNat
          (if s.getV y ≥ s.getV x then 1 else 0))

/-- R138, R140: SHR and SHL shift V[y] under QUIRK_SHIFT_VY and V[x] otherwise, and VF is the bit shifted out.
The quirk (D9) and that the flag wins where x = F (D8) are the spec's own decisions. -/
def Obligations.ShiftsSetShiftedOutBit : Prop :=
  ∀ x y : Index,
    decodeWord (BitVec.ofNat 16 (0x8006 + 0x100 * x.val + 0x10 * y.val)) = some (.shr x y) ∧
    decodeWord (BitVec.ofNat 16 (0x800E + 0x100 * x.val + 0x10 * y.val)) = some (.shl x y) ∧
    ∀ (s : State) (src : Byte), src = (if s.config.quirkShiftVy = true then s.getV y else s.getV x) →
      (∃ t : State, exec (.shr x y) s = .next t ∧ FlagResult s t x (src.toNat / 2) (src.toNat % 2)) ∧
      (∃ t : State, exec (.shl x y) s = .next t ∧ FlagResult s t x (src.toNat * 2 % 256) (src.toNat / 128))

/-- R142, R8: RND writes r & kk to V[x] for whatever byte r the step draws: for every r of `step(r)`, and for the free
value `Config.randomDraw`, of which nothing is known. The count of draws is the model's own (log entry 6). -/
def Obligations.RndMasksTheDraw : Prop :=
  ∀ (x : Index) (kk : Byte),
    decodeWord (BitVec.ofNat 16 (0xC000 + 0x100 * x.val + kk.toNat)) = some (.rnd x kk) ∧
    (∀ s : State, ∃ t : State, exec (.rnd x kk) s = .next t ∧ t.getV x = Config.randomDraw s.draws &&& kk ∧
      (∀ j : Index, j ≠ x → t.getV j = s.getV j) ∧ t = { s with v := t.v, pc := s.pc + 2, draws := s.draws + 1 }) ∧
    (∀ (r : Byte) (s : State), s.status = .running → s.fetchInstr = some (.rnd x kk) →
      ∃ t : State, stepWith r s = .next t ∧ t.getV x = r &&& kk ∧ (∀ j : Index, j ≠ x → t.getV j = s.getV j) ∧
        t = { s with v := t.v, pc := s.pc + 2, draws := s.draws + 1 })

/-- R162 to R165: DRW XORs the sprite into the display at wrapped coordinates, VF is 1 iff a pixel goes from set to
unset, and nothing else changes but PC; n = 0 draws nothing and clears VF. The bit order (D18), the reading of n = 0
(D17) and the address check (D16) are the spec's own decisions. -/
def Obligations.DrwXorsSpriteAndReportsCollision : Prop :=
  ∀ (x y : Index) (n : Nibble),
    decodeWord (BitVec.ofNat 16 (0xD000 + 0x100 * x.val + 0x10 * y.val + n.toNat)) = some (.drw x y n) ∧
    ∀ s : State, (n = 0 ∨ s.i.toNat + n.toNat - 1 ≤ 0xFFF) →
      ∃ t : State, exec (.drw x y n) s = .next t ∧
        (∀ px py, SpriteCovers s x y n px py → t.fb.pixel px py = !s.fb.pixel px py) ∧
        (∀ px py, ¬ SpriteCovers s x y n px py → t.fb.pixel px py = s.fb.pixel px py) ∧
        ((∃ px py, s.fb.pixel px py = true ∧ t.fb.pixel px py = false) → t.getV 15 = 0x01) ∧
        ((∀ px py, s.fb.pixel px py = true → t.fb.pixel px py = true) → t.getV 15 = 0x00) ∧
        (∀ j : Index, j ≠ 15 → t.getV j = s.getV j) ∧
        t = { s with fb := t.fb, v := t.v, pc := s.pc + 2 }

/-- R162, R212, R213, R214, R53: an access past 0xFFF halts with AddressOutOfRange and changes nothing but the
status; addresses do not wrap (the spec's own decisions D5, D16, D17; the register range is G14). -/
def Obligations.AccessPastMemoryHalts : Prop :=
  ∀ s : State,
    (∀ (x y : Index) (n : Nibble), n ≠ 0 → 0xFFF < s.i.toNat + n.toNat - 1 →
      exec (.drw x y n) s = .next { s with status := .halted .addressOutOfRange }) ∧
    (∀ x : Index, 0xFFF < s.i.toNat + 2 →
      exec (.ldBVx x) s = .next { s with status := .halted .addressOutOfRange }) ∧
    (∀ x : Index, 0xFFF < s.i.toNat + x.val →
      exec (.storeRegs x) s = .next { s with status := .halted .addressOutOfRange } ∧
      exec (.loadRegs x) s = .next { s with status := .halted .addressOutOfRange })

/-- R180, R181, R182: SKP skips iff V[x] names a pressed key; SKNP skips iff it does not, so always above 0xF
(the spec's own decision D20). The low bytes 9E and A1 are from general knowledge (G4, G6). -/
def Obligations.KeySkips : Prop :=
  ∀ x : Index,
    decodeWord (BitVec.ofNat 16 (0xE09E + 0x100 * x.val)) = some (.skp x) ∧
    decodeWord (BitVec.ofNat 16 (0xE0A1 + 0x100 * x.val)) = some (.sknp x) ∧
    ∀ s : State,
      (∀ k : Index, (s.getV x).toNat = k.val → s.keys[k] = true →
        exec (.skp x) s = .next { s with pc := s.pc + 4 } ∧ exec (.sknp x) s = .next { s with pc := s.pc + 2 }) ∧
      (∀ k : Index, (s.getV x).toNat = k.val → s.keys[k] = false →
        exec (.skp x) s = .next { s with pc := s.pc + 2 } ∧ exec (.sknp x) s = .next { s with pc := s.pc + 4 }) ∧
      ((s.getV x).toNat > 0xF →
        exec (.skp x) s = .next { s with pc := s.pc + 2 } ∧ exec (.sknp x) s = .next { s with pc := s.pc + 4 })

/-- R183: with a key pressed, LD Vx, K loads the lowest-numbered one and the step returns Continue; with none, it sets
`awaiting`, leaves PC alone and the step returns AwaitingKey. That it takes a key already held, and the lowest, is the
spec's own decision D22. -/
def Obligations.KeyWaitCompletesOrWaits : Prop :=
  ∀ x : Index, decodeWord (BitVec.ofNat 16 (0xF00A + 0x100 * x.val)) = some (.ldVxK x) ∧
  ∀ s : State,
    (∀ k : Index, s.keys[k] = true → (∀ j : Index, j < k → s.keys[j] = false) →
      ∃ t : State, exec (.ldVxK x) s = .next t ∧ (t.getV x).toNat = k.val ∧
        (∀ j : Index, j ≠ x → t.getV j = s.getV j) ∧ t = { s with v := t.v, awaiting := false, pc := s.pc + 2 } ∧
        (s.status = .running → s.fetchInstr = some (.ldVxK x) → step s = .next t ∧ stepOutput s = some .continues)) ∧
    ((∀ k : Index, s.keys[k] = false) →
      exec (.ldVxK x) s = .next { s with awaiting := true } ∧
      (s.status = .running → s.fetchInstr = some (.ldVxK x) →
        step s = .next { s with awaiting := true } ∧ stepOutput s = some .awaitingKey))

/-- R141, R201: LD I, nnn writes nnn to I and LD DT, Vx writes V[x] to DT; each changes nothing else but PC. -/
def Obligations.IndexLoadAndDelayTimerWrite : Prop :=
  (∀ nnn : Addr12, decodeWord (BitVec.ofNat 16 (0xA000 + nnn.toNat)) = some (.ldI nnn) ∧
    ∀ s : State, ∃ t : State, exec (.ldI nnn) s = .next t ∧ t.i.toNat = nnn.toNat ∧
      t = { s with i := t.i, pc := s.pc + 2 }) ∧
  (∀ x : Index, decodeWord (BitVec.ofNat 16 (0xF015 + 0x100 * x.val)) = some (.ldDtVx x) ∧
    ∀ s : State, exec (.ldDtVx x) s = .next { s with dt := s.getV x, pc := s.pc + 2 })

/-- R200, R202, R210: LD Vx, DT writes DT to V[x], LD ST, Vx writes V[x] to ST, ADD I, Vx adds V[x] to I modulo 2^16
and leaves VF; each changes nothing else but PC. The encodings of the timer moves (G4, G7, G11), the existence of ADD I, Vx (D1)
and its wrap (D15) are the spec's own. -/
def Obligations.TimerMovesAndAddToIndex : Prop :=
  ∀ x : Index,
    decodeWord (BitVec.ofNat 16 (0xF007 + 0x100 * x.val)) = some (.ldVxDt x) ∧
    decodeWord (BitVec.ofNat 16 (0xF018 + 0x100 * x.val)) = some (.ldStVx x) ∧
    decodeWord (BitVec.ofNat 16 (0xF01E + 0x100 * x.val)) = some (.addIVx x) ∧
    ∀ s : State,
      (∃ t : State, exec (.ldVxDt x) s = .next t ∧ RegResult s t x s.dt) ∧
      exec (.ldStVx x) s = .next { s with st := s.getV x, pc := s.pc + 2 } ∧
      ∃ t : State, exec (.addIVx x) s = .next t ∧
        t.i.toNat = (s.i.toNat + (s.getV x).toNat) % 0x10000 ∧ t = { s with i := t.i, pc := s.pc + 2 }

/-- R211: LD F, Vx points I at FONT_BASE + 5 · (V[x] & 0x0F); the glyph's five bytes are bytes
of the font, and lie below 0x200 where the font is in its region (R52). The formula is the spec's own decision D14, and
the low byte 29 is from general knowledge (G4, G7). -/
def Obligations.LdFPointsAtGlyph : Prop :=
  ∀ x : Index, decodeWord (BitVec.ofNat 16 (0xF029 + 0x100 * x.val)) = some (.ldFVx x) ∧
  ∀ s : State, ∃ t : State, exec (.ldFVx x) s = .next t ∧
    t.i.toNat = s.config.fontBase.toNat + 5 * ((s.getV x).toNat % 16) ∧ t = { s with i := t.i, pc := s.pc + 2 } ∧
    t.i.toNat + 4 < s.config.fontBase.toNat + 80 ∧ (s.config.wf = true → t.i.toNat + 4 < 0x200)

/-- R212: LD B, Vx stores the decimal digits of V[x] at I, I + 1, I + 2, hundreds first, and no other byte; in every
memory in canonical form the three bytes then read as the digits. The order of the digits and the address check are the
spec's own decision D16 (G13), and the low byte 33 is from general knowledge (G4, G7). -/
def Obligations.BcdStoresDigits : Prop :=
  ∀ x : Index, decodeWord (BitVec.ofNat 16 (0xF033 + 0x100 * x.val)) = some (.ldBVx x) ∧
  ∀ s : State, s.i.toNat + 2 ≤ 0xFFF → ∃ t : State, exec (.ldBVx x) s = .next t ∧
    t = { s with mem := t.mem, pc := s.pc + 2 } ∧ SameMemoryOutside s.i.toNat 3 s t ∧
    (Memory.wf s.config s.mem = true →
      (t.byteAt s.i.toNat).toNat = (s.getV x).toNat / 100 ∧
      (t.byteAt (s.i.toNat + 1)).toNat = (s.getV x).toNat / 10 % 10 ∧
      (t.byteAt (s.i.toNat + 2)).toNat = (s.getV x).toNat % 10)

/-- R213: LD [I], Vx stores V0 .. V[x] at I .. I + x and no other byte; I becomes I + x + 1 modulo 2^16 under
QUIRK_MEM_INCREMENT_I and is unchanged otherwise. The range (G14), the quirk (D10) and the check (D16) are the spec's
own. -/
def Obligations.StoreRegistersToMemory : Prop :=
  ∀ x : Index, decodeWord (BitVec.ofNat 16 (0xF055 + 0x100 * x.val)) = some (.storeRegs x) ∧
  ∀ s : State, s.i.toNat + x.val ≤ 0xFFF → ∃ t : State, exec (.storeRegs x) s = .next t ∧
    t = { s with mem := t.mem, i := t.i, pc := s.pc + 2 } ∧ SameMemoryOutside s.i.toNat (x.val + 1) s t ∧
    (Memory.wf s.config s.mem = true → ∀ k : Index, k ≤ x → t.byteAt (s.i.toNat + k.val) = s.getV k) ∧
    (s.config.quirkMemIncrementI = true → t.i.toNat = (s.i.toNat + x.val + 1) % 0x10000) ∧
    (s.config.quirkMemIncrementI = false → t.i = s.i)

/-- R214: LD Vx, [I] loads V0 .. V[x] from I .. I + x and no other register; I as in R213.
The range (G14), the quirk (D10) and the check (D16) are the spec's own. -/
def Obligations.LoadRegistersFromMemory : Prop :=
  ∀ x : Index, decodeWord (BitVec.ofNat 16 (0xF065 + 0x100 * x.val)) = some (.loadRegs x) ∧
  ∀ s : State, s.i.toNat + x.val ≤ 0xFFF → ∃ t : State, exec (.loadRegs x) s = .next t ∧
    t = { s with v := t.v, i := t.i, pc := s.pc + 2 } ∧
    (∀ k : Index, k ≤ x → t.getV k = s.byteAt (s.i.toNat + k.val)) ∧ (∀ k : Index, x < k → t.getV k = s.getV k) ∧
    (s.config.quirkMemIncrementI = true → t.i.toNat = (s.i.toNat + x.val + 1) % 0x10000) ∧
    (s.config.quirkMemIncrementI = false → t.i = s.i)

/-! Encoding. -/

/-- R74, R9: words written out from the opcode map, at least one of each of the sixteen classes, decode to the instruction they stand for.
The low bits of some are from general knowledge (D1, G4 to G7). -/
def Obligations.SampleWordsDecode : Prop :=
  decodeWord 0x00E0 = some .cls ∧ decodeWord 0x00EE = some .ret ∧ decodeWord 0x1208 = some (.jp 0x208) ∧
  decodeWord 0x2300 = some (.call 0x300) ∧ decodeWord 0x3A02 = some (.seImm 0xA 0x02) ∧
  decodeWord 0x4311 = some (.sneImm 0x3 0x11) ∧ decodeWord 0x5120 = some (.seReg 0x1 0x2) ∧
  decodeWord 0x6A02 = some (.ldImm 0xA 0x02) ∧ decodeWord 0x71FF = some (.addImm 0x1 0xFF) ∧
  decodeWord 0x812E = some (.shl 0x1 0x2) ∧ decodeWord 0x9120 = some (.sneReg 0x1 0x2) ∧
  decodeWord 0xA2F0 = some (.ldI 0x2F0) ∧ decodeWord 0xB210 = some (.jpV0 0x2 0x210) ∧
  decodeWord 0xC30F = some (.rnd 0x3 0x0F) ∧
  decodeWord 0xD015 = some (.drw 0x0 0x1 0x5) ∧ decodeWord 0xE29E = some (.skp 0x2) ∧
  decodeWord 0xF30A = some (.ldVxK 0x3) ∧ decodeWord 0xFF65 = some (.loadRegs 0xF)

/-- R70 to R74, R54: for every well-formed instruction, with any bytes after it, decoding its two bytes gives it back
and leaves the rest. -/
def Obligations.DecodeOfEncode : Prop :=
  ∀ (i : Instr) (rest : List Byte), i.wf = true → decode (encodeBytes i ++ rest) = .ok (i, rest)

/-- R80, R83: a word that decodes is the encoding of the instruction it decodes to, which is well formed, so no two words
stand for one instruction and no bit of a word is dropped. -/
def Obligations.EncodeOfDecode : Prop :=
  ∀ (op : Word) (i : Instr), decodeWord op = some i → encode i = op ∧ i.wf = true

/-- R74, R80: a word decodes exactly when it belongs to a row of the opcode map, the row is that of the instruction it
decodes to, and it belongs to no second one. The low bits of many rows are from general knowledge (D1, G4 to G7). -/
def Obligations.DecoderFollowsOpcodeMap : Prop :=
  ∀ op : Word,
    (decodeWord op = none ↔ ∀ r ∈ opcodeTable, r.matchesWord op = false) ∧
    (∀ i : Instr, decodeWord op = some i → opcodeRow i ∈ opcodeTable ∧
      ∀ r ∈ opcodeTable, r.matchesWord op = true ↔ r = opcodeRow i)

/-- R79: the unsupported words are exactly those listed, 21,582 in all, and executing one halts with the whole word
recorded. Strict decoding is the spec's own decision D2, and the low bits that are supported are in part from general
knowledge (D1, G4 to G7). -/
def Obligations.UnsupportedWordsHalt : Prop :=
  (∀ op : Word, decodeWord op = none ↔
    (op.toNat / 0x1000 = 0x0 ∧ op ≠ 0x00E0 ∧ op ≠ 0x00EE) ∨
    (op.toNat / 0x1000 = 0x5 ∧ op.toNat % 0x10 ≠ 0) ∨
    (op.toNat / 0x1000 = 0x8 ∧ op.toNat % 0x10 ∈ [0x8, 0x9, 0xA, 0xB, 0xC, 0xD, 0xF]) ∨
    (op.toNat / 0x1000 = 0x9 ∧ op.toNat % 0x10 ≠ 0) ∨
    (op.toNat / 0x1000 = 0xE ∧ op.toNat % 0x100 ∉ [0x9E, 0xA1]) ∨
    (op.toNat / 0x1000 = 0xF ∧ op.toNat % 0x100 ∉ [0x07, 0x0A, 0x15, 0x18, 0x1E, 0x29, 0x33, 0x55, 0x65])) ∧
  (List.range 16).map unsupportedInClass = [4094, 0, 0, 0, 0, 3840, 0, 0, 1792, 3840, 0, 0, 0, 0, 4064, 3952] ∧
  ((List.range 16).map unsupportedInClass).sum = 21582 ∧
  (∀ (s : State) (op : Word), s.status = .running → s.fetchWord = some op → decodeWord op = none →
    step s = .next { s with status := .halted (.unsupportedInstruction op) })

/-! The step. -/

/-- R101, R54 (D4, and the byte order as the spec infers it): where the engine runs and PC passes the fetch check, a step is exec of the instruction that the two bytes
at PC and PC + 1 decode to, at that same state. -/
def Obligations.StepRunsTheDecodedInstruction : Prop :=
  ∀ (s : State) (i : Instr), s.status = .running → 0x200 ≤ s.pc.toNat → s.pc.toNat ≤ 0xFFE →
    decode [s.byteAt s.pc.toNat, s.byteAt (s.pc.toNat + 1)] = .ok (i, []) → step s = exec i s

/-- R101, R244, R245: the checks before the instruction's own, in their order, and what each reports (the spec's own
decisions D4, D5, D6). -/
def Obligations.StepChecksInOrder : Prop :=
  ∀ s : State,
    (∀ r : HaltReason, s.status = .halted r → step s = .next s ∧ stepOutput s = some (.halted r)) ∧
    (s.status = .running → (s.pc.toNat < 0x200 ∨ 0xFFE < s.pc.toNat) →
      step s = .next { s with status := .halted .addressOutOfRange } ∧
      stepOutput s = some (.halted .addressOutOfRange)) ∧
    (∀ op : Word, s.status = .running → 0x200 ≤ s.pc.toNat → s.pc.toNat ≤ 0xFFE →
      op.toNat = (s.byteAt s.pc.toNat).toNat * 256 + (s.byteAt (s.pc.toNat + 1)).toNat → decodeWord op = none →
      step s = .next { s with status := .halted (.unsupportedInstruction op) } ∧
      stepOutput s = some (.halted (.unsupportedInstruction op)))

/-- R100: every step, and every step with its draw given, answers a next state: there is no fault and no refusal.
That a halt is a next state is the model's form of R243 (log entry 1), and that a halted engine answers one at all is its
choice: R244 and D6 let a model refuse there (log entry 2). -/
def Obligations.StepIsTotal : Prop :=
  ∀ s : State, (∃ t : State, step s = .next t) ∧ (∀ r : Byte, ∃ t : State, stepWith r s = .next t) ∧
    ∃ o : StepOutput, stepOutput s = some o

/-- R243: a step that halts a running engine changes nothing but the status (the spec's own decision D5). -/
def Obligations.HaltsArePrecise : Prop :=
  ∀ (s t : State) (r : HaltReason), s.status = .running → step s = .next t → t.status = .halted r →
    t = { s with status := .halted r }

/-- R240, with the conditions of R101, R104, R106, R162 and R212 to R214: a step of a running engine halts with each
reason exactly for its cause, and returns the halt it sets. The check at fetch only (D4), exact addresses (D16), the empty
sprite (D17) and the inclusive register range (G14) are the spec's own. -/
def Obligations.HaltCauses : Prop :=
  ∀ s t : State, s.status = .running → step s = .next t →
    (∀ raw : Word, t.status = .halted (.unsupportedInstruction raw) ↔ s.fetchWord = some raw ∧ decodeWord raw = none) ∧
    (t.status = .halted .stackOverflow ↔ (∃ nnn, s.fetchInstr = some (.call nnn)) ∧ s.sp.val = 16) ∧
    (t.status = .halted .stackUnderflow ↔ s.fetchInstr = some .ret ∧ s.sp.val = 0) ∧
    (t.status = .halted .addressOutOfRange ↔
      (s.pc.toNat < 0x200 ∨ 0xFFE < s.pc.toNat) ∨
      (∃ x y n, s.fetchInstr = some (.drw x y n) ∧ n ≠ 0 ∧ 0xFFF < s.i.toNat + n.toNat - 1) ∨
      (∃ x, s.fetchInstr = some (.ldBVx x) ∧ 0xFFF < s.i.toNat + 2) ∨
      (∃ x, (s.fetchInstr = some (.storeRegs x) ∨ s.fetchInstr = some (.loadRegs x)) ∧ 0xFFF < s.i.toNat + x.val)) ∧
    (∀ r : HaltReason, t.status = .halted r → stepOutput s = some (.halted r))

/-- R244: once halted, every number of later steps changes nothing and returns the same halt (the spec's own decision
D6; log entry 2). -/
def Obligations.HaltsAreTerminal : Prop :=
  ∀ (s : State) (r : HaltReason) (k : Nat), s.status = .halted r →
    Sys2Proof.core.run k s = .next s ∧ stepOutput s = some (.halted r)

/-- R103: what a step returns: Halted(reason) iff the state it leaves is halted, AwaitingKey iff that state runs and an
Fx0A found no key pressed (D22), Continue iff that state runs and no Fx0A did. A halted engine's return is D6. -/
def Obligations.StepReturnsItsStatus : Prop :=
  ∀ s t : State, step s = .next t →
    (∀ r : HaltReason, stepOutput s = some (.halted r) ↔ t.status = .halted r) ∧
    (stepOutput s = some .awaitingKey ↔
      t.status = .running ∧ (∃ x, s.fetchInstr = some (.ldVxK x)) ∧ ∀ k : Index, s.keys[k] = false) ∧
    (stepOutput s = some .continues ↔
      t.status = .running ∧ ¬ ((∃ x, s.fetchInstr = some (.ldVxK x)) ∧ ∀ k : Index, s.keys[k] = false))

/-- R24: where a running step leaves PC. It is unchanged by a halt and by a wait, and otherwise is the address after,
the address after that for a skip instruction, or the target of a jump, call or return. The halts (D5),
the return address (D7) and the offset and exact sum of Bnnn (D11, D30) are the spec's own decisions. -/
def Obligations.StepMovesPc : Prop :=
  ∀ (s t : State) (i : Instr), s.status = .running → s.fetchInstr = some i → step s = .next t →
    (t.status ≠ .running → t.pc = s.pc) ∧
    (t.status = .running →
      match i with
      | .ret => ∃ k : Index, s.sp.val = k.val + 1 ∧ t.pc = s.stack[k]
      | .jp nnn => t.pc.toNat = nnn.toNat
      | .call nnn => t.pc.toNat = nnn.toNat
      | .jpV0 x nnn => t.pc.toNat = nnn.toNat + (s.getV (if s.config.quirkJumpVx then x else 0)).toNat
      | .seImm _ _ | .sneImm _ _ | .seReg _ _ | .sneReg _ _ | .skp _ | .sknp _ =>
        t.pc.toNat = s.pc.toNat + 2 ∨ t.pc.toNat = s.pc.toNat + 4
      | .ldVxK _ => t.pc.toNat = if s.lowestPressed.isNone then s.pc.toNat else s.pc.toNat + 2
      | _ => t.pc.toNat = s.pc.toNat + 2)

/-- R8, R100: a step is the step with some draw given, and the draw changes nothing unless the instruction is Cxkk (the
spec's own decision D21; that `step` takes the draw from a free value is the model's, log entry 6). -/
def Obligations.OnlyRndReadsTheDraw : Prop :=
  ∀ s : State, step s = stepWith (Config.randomDraw s.draws) s ∧
    ((∀ x kk, s.fetchInstr ≠ some (.rnd x kk)) → ∀ r : Byte, stepWith r s = step s)

/-! Which instruction touches what: rules over all instructions. -/

/-- R21, R22: an instruction changes no register but its named destination, the range Fx65 loads, and VF where it writes
VF as a flag. That the logic instructions may write it is the spec's own decision D12. -/
def Obligations.RegistersChangedOnlyByTheirWriters : Prop :=
  ∀ (i : Instr) (s t : State) (j : Index), exec i s = .next t →
    i.destination ≠ some j → (∀ x, i = .loadRegs x → x < j) → (j = 15 → i.writesFlag s.config = false) →
    t.getV j = s.getV j

/-- R23: only Annn, Fx1E and Fx29 change I, and Fx55 and Fx65 under QUIRK_MEM_INCREMENT_I (D10, D15). -/
def Obligations.IndexChangedOnlyByItsWriters : Prop :=
  ∀ (i : Instr) (s t : State), exec i s = .next t → t.i ≠ s.i →
    (∃ nnn, i = .ldI nnn) ∨ (∃ x, i = .addIVx x) ∨ (∃ x, i = .ldFVx x) ∨
    ((∃ x, i = .storeRegs x ∨ i = .loadRegs x) ∧ s.config.quirkMemIncrementI = true)

/-- R25, R26: only CALL and RET change SP, only CALL changes a stack entry, the one at SP, and the entries at or above SP
are dead: changing one changes nothing an instruction does but dead entries (the spec's own decisions D26, D28). -/
def Obligations.StackBelongsToCallAndRet : Prop :=
  ∀ (i : Instr) (s t : State), exec i s = .next t →
    (t.sp ≠ s.sp → i = .ret ∨ ∃ nnn, i = .call nnn) ∧
    (∀ j : Index, t.stack[j] ≠ s.stack[j] → j.val = s.sp.val ∧ ∃ nnn, i = .call nnn) ∧
    (∀ (k : Index) (a : Word), s.sp.val ≤ k.val → ∃ u : State, exec i { s with stack := s.stack.set k a } = .next u ∧
      u = { t with stack := u.stack } ∧ ∀ j : Index, j.val < t.sp.val → u.stack[j] = t.stack[j])

/-- R27, R28: of the instructions, only Fx15 changes DT and only Fx18 changes ST, and none reads ST: with another ST every
instruction does the same, and leaves that ST unless it is Fx18. -/
def Obligations.TimersChangedOnlyByTheirWriters : Prop :=
  ∀ (i : Instr) (s t : State), exec i s = .next t →
    (t.dt ≠ s.dt → ∃ x, i = .ldDtVx x) ∧ (t.st ≠ s.st → ∃ x, i = .ldStVx x) ∧
    ∀ b : Byte, exec i { s with st := b } = .next t ∧ (∃ x, i = .ldStVx x) ∨
      exec i { s with st := b } = .next { t with st := b }

/-- R30, R160: only CLS and DRW change a pixel, DRW the pixels its sprite covers (D18). -/
def Obligations.PixelsChangedOnlyByClsAndDrw : Prop :=
  ∀ (i : Instr) (s t : State) (px : Fin 64) (py : Fin 32), exec i s = .next t →
    t.fb.pixel px py ≠ s.fb.pixel px py → i = .cls ∨ ∃ x y n, i = .drw x y n ∧ SpriteCovers s x y n px py

/-- R67: Fx33 and Fx55 alone change memory, at the addresses R67 gives; an instruction outside the four that access
memory does not depend on it. The addresses rest on D16 and G14. -/
def Obligations.MemoryReachedOnlyByItsInstructions : Prop :=
  ∀ (i : Instr) (s t : State), exec i s = .next t →
    (∀ a : Nat, t.byteAt a ≠ s.byteAt a →
      (∃ x, i = .ldBVx x) ∧ s.i.toNat ≤ a ∧ a ≤ s.i.toNat + 2 ∨
      ∃ x, i = .storeRegs x ∧ s.i.toNat ≤ a ∧ a ≤ s.i.toNat + x.val) ∧
    (i.accessesMemory = false → ∀ m : Memory, exec i { s with mem := m } = .next { t with mem := m })

/-- R33, R258: no instruction changes a key, and only Ex9E, ExA1 and Fx0A read one (D19). -/
def Obligations.KeysReadOnlyByKeyInstructions : Prop :=
  ∀ (i : Instr) (s t : State), exec i s = .next t → t.keys = s.keys ∧
    (i.readsKeys = false → ∀ ks : Vector Bool 16, exec i { s with keys := ks } = .next { t with keys := ks })

/-- R35, R183: Fx0A sets `awaiting` where it finds no key pressed and clears it where it completes, no other instruction
changes it, and no instruction's effect depends on it. That a key already held completes it is the spec's own decision
D22. -/
def Obligations.AwaitingAffectsNoInstruction : Prop :=
  ∀ (i : Instr) (s t : State), exec i s = .next t →
    (∀ x, i = .ldVxK x → (t.awaiting = true ↔ ∀ k : Index, s.keys[k] = false)) ∧
    (t.awaiting ≠ s.awaiting → ∃ x, i = .ldVxK x) ∧
    ∀ b : Bool, ∃ u : State, exec i { s with awaiting := b } = .next u ∧ u = { t with awaiting := u.awaiting }

/-- R81: the quirk flags change only what the instructions of `Instr.hasQuirk` compute, and no instruction changes the
setting (R270; that the setting stands in the state is the model's choice, log entry 4). The quirks are the spec's own decisions
D9 to D12. -/
def Obligations.QuirksChangeOnlyTheirInstructions : Prop :=
  ∀ (i : Instr) (s t : State), exec i s = .next t → t.config = s.config ∧
    (i.hasQuirk = false → ∀ a b c d : Bool, exec i (s.withQuirks a b c d) = .next (t.withQuirks a b c d))

/-! Invariants. -/

/-- R41, R40 (D23): the state after construction meets the invariants, whatever the setting, if its font lies in its region. -/
def Obligations.ConstructedStateMeetsInvariant : Prop :=
  (∀ c : Config, c.wf = true → (construct c).Inv ∧ (construct c).KeyWaitInv) ∧ State.reset.Inv ∧ State.reset.KeyWaitInv

/-- R41, R50: from every state that meets the invariant, a step, whatever its draw, gives one that meets it: memory
stays in canonical form inside 0x000 to 0xFFF (the model's form, log entry 8), PC stays at or below 0x10FE, and the live
stack entries stay return addresses (an inference from R106). -/
def Obligations.StepKeepsInvariant : Prop :=
  ∀ s t : State, s.Inv → (step s = .next t ∨ ∃ r : Byte, stepWith r s = .next t) → t.Inv

/-- R279, R183: while the core awaits a key it stands at an Fx0A. A step keeps that, and while no key is pressed the step
re-executes the instruction and changes nothing. The wait is level-sensitive by the spec's own decision D22. -/
def Obligations.StepKeepsKeyWait : Prop :=
  ∀ s t : State, s.KeyWaitInv → step s = .next t → t.KeyWaitInv ∧
    (s.awaiting = true → (∀ k : Index, s.keys[k] = false) → t = s)

/-- R41, R261: from every session that meets the invariants, any move of the host, with any ROM, any key, any draw and any
setting, gives one that meets them; a fresh session with its font in place meets them; so every session that the host's
moves reach does. The host's moves are the spec's decision D24, and the session's flags are the model's (log entry 9). -/
def Obligations.ReachableSessionsMeetInvariants : Prop :=
  (∀ (p q : Session) (op : HostOp), p.Inv → p.perform op = .ok q → q.Inv) ∧
  (∀ c : Config, c.wf = true → (Session.fresh c).Inv) ∧
  ∀ p : Session, p.Reachable → p.Inv

/-! Memory, as programs use it. -/

/-- R64, R277, R212, R213: after Fx55 or Fx33 the very next fetch reads each of its two bytes as stored where the store reached it, and
as before where it did not, so also where only one byte of the instruction was stored. The spec's
own are: that the program can be written (D29), the order of the digits and the exact addresses (D16, G13), and the
inclusive register range (G14). -/
def Obligations.StoresReachTheNextFetch : Prop :=
  ∀ (x : Index) (s t : State), Memory.wf s.config s.mem = true → s.status = .running → t.status = .running →
    0x200 ≤ t.pc.toNat → t.pc.toNat ≤ 0xFFE →
    (exec (.storeRegs x) s = .next t →
      t.fetchWord = some (wordOfBytes (byteAfterStore s.i.toNat (s.v.toList.take (x.val + 1)) s t.pc.toNat)
        (byteAfterStore s.i.toNat (s.v.toList.take (x.val + 1)) s (t.pc.toNat + 1)))) ∧
    (exec (.ldBVx x) s = .next t →
      ∀ digits : List Byte, digits.map BitVec.toNat =
          [(s.getV x).toNat / 100, (s.getV x).toNat / 10 % 10, (s.getV x).toNat % 10] →
        t.fetchWord = some (wordOfBytes (byteAfterStore s.i.toNat digits s t.pc.toNat)
          (byteAfterStore s.i.toNat digits s (t.pc.toNat + 1))))

/-- R213, R214: what Fx55 stored, Fx65 with the same x loads again, whatever the registers hold in between.
The range (G14) and the address check (D16) are the spec's own. -/
def Obligations.LoadAfterStoreRestoresRegisters : Prop :=
  ∀ (x : Index) (s : State) (w : Vector Byte 16), Memory.wf s.config s.mem = true → s.i.toNat + x.val ≤ 0xFFF →
    ∃ t u : State, exec (.storeRegs x) s = .next t ∧ exec (.loadRegs x) { t with v := w, i := s.i } = .next u ∧
      (∀ k : Index, k ≤ x → u.getV k = s.getV k) ∧ (∀ k : Index, x < k → u.getV k = w[k])

/-! Subroutines and sprites: two instructions together. -/

/-- R104, R106: a RET after a CALL resumes at the instruction after the CALL with the stack as deep as before and its
live entries unchanged (the spec's own decision D7). -/
def Obligations.RetResumesAfterCall : Prop :=
  ∀ (nnn : Addr12) (s : State), s.sp.val < 16 → ∃ t u : State, exec (.call nnn) s = .next t ∧ exec .ret t = .next u ∧
    u = { s with pc := s.pc + 2, stack := u.stack } ∧ ∀ j : Index, j.val < s.sp.val → u.stack[j] = s.stack[j]

/-- R162, R165: drawing the same sprite twice at coordinates that VF does not hold gives the display back, and the second
drawing collides iff the sprite covers a pixel that was unset. The bit order (D18), the empty sprite (D17) and the address
check (D16) are the spec's own decisions. -/
def Obligations.DrawingTwiceRestoresDisplay : Prop :=
  ∀ (x y : Index) (n : Nibble) (s : State), x ≠ 15 → y ≠ 15 → (n = 0 ∨ s.i.toNat + n.toNat - 1 ≤ 0xFFF) →
    ∃ t u : State, exec (.drw x y n) s = .next t ∧ exec (.drw x y n) t = .next u ∧ u.fb = s.fb ∧
      (u.getV 15 = 0x01 ↔ ∃ px py, SpriteCovers s x y n px py ∧ s.fb.pixel px py = false)

/-! Construction and the host. -/

/-- R40, R51, R270: what construction leaves, for every setting; that reset is construction with its own setting; and that
this setting is the default of R7, with the glyphs of R37 (the spec's own decisions D9 to D13 and D23). -/
def Obligations.ConstructionValues : Prop :=
  (∀ c : Config,
    (∀ j : Index, (construct c).getV j = 0x00 ∧ (construct c).stack[j] = 0x0000 ∧ (construct c).keys[j] = false) ∧
    (construct c).i = 0x0000 ∧ (construct c).pc = 0x0200 ∧ (construct c).sp.val = 0 ∧ (construct c).dt = 0x00 ∧
    (construct c).st = 0x00 ∧ (∀ x y, (construct c).fb.pixel x y = false) ∧ (construct c).awaiting = false ∧
    (construct c).status = .running ∧ (construct c).config = c ∧
    (∀ j : Fin 80, (construct c).byteAt (c.fontBase.toNat + j.val) = c.fontGlyphs[j]) ∧
    (∀ a : Nat, (a < c.fontBase.toNat ∨ c.fontBase.toNat + 80 ≤ a) → (construct c).byteAt a = 0x00)) ∧
  State.reset = construct State.reset.config ∧
  State.reset.config.quirkShiftVy = false ∧ State.reset.config.quirkMemIncrementI = false ∧
  State.reset.config.quirkJumpVx = false ∧ State.reset.config.quirkLogicVfReset = false ∧
  State.reset.config.fontBase = 0x000 ∧
  State.reset.config.fontGlyphs.toList =
    [0xF0, 0x90, 0x90, 0x90, 0xF0] ++ [0x20, 0x60, 0x20, 0x20, 0x70] ++ [0xF0, 0x10, 0xF0, 0x80, 0xF0] ++
    [0xF0, 0x10, 0xF0, 0x10, 0xF0] ++ [0x90, 0x90, 0xF0, 0x10, 0x10] ++ [0xF0, 0x80, 0xF0, 0x10, 0xF0] ++
    [0xF0, 0x80, 0xF0, 0x90, 0xF0] ++ [0xF0, 0x10, 0x20, 0x40, 0x40] ++ [0xF0, 0x90, 0xF0, 0x90, 0xF0] ++
    [0xF0, 0x90, 0xF0, 0x10, 0xF0] ++ [0xF0, 0x90, 0xF0, 0x90, 0x90] ++ [0xE0, 0x90, 0xE0, 0x90, 0xE0] ++
    [0xF0, 0x80, 0x80, 0x80, 0xF0] ++ [0xE0, 0x90, 0x90, 0x90, 0xE0] ++ [0xF0, 0x80, 0xF0, 0x80, 0xF0] ++
    [0xF0, 0x80, 0xF0, 0x80, 0x80]

/-- R251: n ticks count each timer down by n, floored at 0, independently, and change nothing else (D25). -/
def Obligations.TicksCountDown : Prop :=
  ∀ (n : Nat) (s : State), ∃ t : State, tick^[n] s = t ∧ t.dt.toNat = s.dt.toNat - n ∧ t.st.toNat = s.st.toNat - n ∧
    t = { s with dt := t.dt, st := t.st }

/-- R34, R258: set_key writes the one key it names; the pressed-key signal 0 releases every key, 1 to F presses that key
only, more is refused; nothing else changes (D19). -/
def Obligations.KeySignalSetsKeys : Prop :=
  (∀ (k : Index) (b : Bool) (s : State), ∃ t : State, setKey k b s = t ∧ t.keys[k] = b ∧
    (∀ j : Index, j ≠ k → t.keys[j] = s.keys[j]) ∧ t = { s with keys := t.keys }) ∧
  ∀ (v : Byte) (s : State),
    (v = 0 → ∃ t : State, setPressedKeySignal v s = .ok t ∧ (∀ k : Index, t.keys[k] = false) ∧ t = { s with keys := t.keys }) ∧
    (∀ d : Index, v.toNat = d.val → d ≠ 0 → ∃ t : State, setPressedKeySignal v s = .ok t ∧ t.keys[d] = true ∧
      (∀ k : Index, k ≠ d → t.keys[k] = false) ∧ t = { s with keys := t.keys }) ∧
    (v.toNat > 0xF → setPressedKeySignal v s = .error .keySignalOutOfRange)

/-- R256: load_rom puts the ROM at 0x200 and leaves every other byte as constructed, so zero above it; a ROM of more than
0xE00 bytes is refused (D24). -/
def Obligations.LoadRomPlacesProgram : Prop :=
  ∀ (c : Config) (rom : List Byte), c.wf = true →
    (rom.length ≤ 0xE00 → ∃ t : State, loadRom rom (construct c) = .ok t ∧ t = { construct c with mem := t.mem } ∧
      (∀ (j : Nat) (h : j < rom.length), t.byteAt (0x200 + j) = rom[j]) ∧
      (∀ a : Nat, a < 0x200 → t.byteAt a = (construct c).byteAt a) ∧
      (∀ a : Nat, 0x200 + rom.length ≤ a → t.byteAt a = 0x00)) ∧
    (rom.length > 0xE00 → ∀ s : State, loadRom rom s = .error .romTooLong)

/-- R272, R273: after construct, load_rom and start, the first step runs the instruction in the ROM's first two bytes
(the session is the model's form of R255, log entry 9). -/
def Obligations.FirstStepRunsTheRom : Prop :=
  ∀ (c : Config) (i : Instr) (rest : List Byte) (r : Byte), c.wf = true → i.wf = true → rest.length ≤ 0xDFE →
    ∃ p q : Session, (Session.fresh c).perform (.loadRom (encodeBytes i ++ rest)) = .ok p ∧ p.perform .start = .ok p ∧
      p.perform (.step r) = .ok q ∧ execWith r i p.engine = .next q.engine ∧ q.begun = true

/-- R255, R259, R261: the host's moves. Beside construction and steps they change only memory, by load_rom before the
first step, the keys and the timers: never the framebuffer, the registers or a halt (D24; log entry 9). -/
def Obligations.HostMovesAreConfined : Prop :=
  ∀ p q : Session,
    (∀ rom : List Byte, p.begun = true → p.perform (.loadRom rom) = .error .notAllowedNow) ∧
    (p.loaded = false → p.perform .start = .error .notAllowedNow) ∧
    (∀ op : HostOp, (∀ c, op ≠ .construct c) → (∀ r, op ≠ .step r) → p.perform op = .ok q →
      q.engine = { p.engine with mem := q.engine.mem, keys := q.engine.keys, dt := q.engine.dt, st := q.engine.st } ∧
      q.begun = p.begun ∧
      ((∀ rom, op ≠ .loadRom rom) → q.engine.mem = p.engine.mem) ∧
      (op ≠ .tick → q.engine.dt = p.engine.dt ∧ q.engine.st = p.engine.st) ∧
      ((∀ k b, op ≠ .setKey k b) → (∀ v, op ≠ .setPressedKeySignal v) → q.engine.keys = p.engine.keys))
end

