-- ==== Sys2Proof/Laws/Decode.lean ====
section
/-!
SUPPORT. A field of a word is a digit of its number, a packed word is the number of its fields, and so each field of
a packed word is the field that was packed.
-/
namespace Sys2Proof

theorem fieldC_toNat (op : Word) : (fieldC op).toNat = op.toNat / 4096 % 16 := by
  simp [fieldC, Nat.shiftRight_eq_div_pow]

theorem fieldX_val (op : Word) : (fieldX op).val = op.toNat / 256 % 16 := by
  simp [fieldX, Nat.shiftRight_eq_div_pow]

theorem fieldY_val (op : Word) : (fieldY op).val = op.toNat / 16 % 16 := by
  simp [fieldY, Nat.shiftRight_eq_div_pow]

theorem fieldN_toNat (op : Word) : (fieldN op).toNat = op.toNat % 16 := by
  simp [fieldN]

theorem fieldKK_toNat (op : Word) : (fieldKK op).toNat = op.toNat % 256 := by
  simp [fieldKK]

theorem fieldNNN_toNat (op : Word) : (fieldNNN op).toNat = op.toNat % 4096 := by
  simp [fieldNNN]

/-- The number of a concatenation (R9). -/
theorem append_toNat {m n : Nat} (a : BitVec m) (b : BitVec n) : (a ++ b).toNat = a.toNat * 2 ^ n + b.toNat := by
  rw [BitVec.toNat_append, ← Nat.shiftLeft_add_eq_or_of_lt b.isLt, Nat.shiftLeft_eq]

theorem packXYN_toNat (c : Nibble) (x y : Index) (n : Nibble) :
    (packXYN c x y n).toNat = c.toNat * 4096 + x.val * 256 + y.val * 16 + n.toNat := by
  simp only [packXYN, append_toNat, BitVec.toNat_ofFin]
  omega

theorem packXKK_toNat (c : Nibble) (x : Index) (kk : Byte) :
    (packXKK c x kk).toNat = c.toNat * 4096 + x.val * 256 + kk.toNat := by
  simp only [packXKK, append_toNat, BitVec.toNat_ofFin]
  omega

theorem packNNN_toNat (c : Nibble) (nnn : Addr12) : (packNNN c nnn).toNat = c.toNat * 4096 + nnn.toNat := by
  simp only [packNNN, append_toNat]
  omega

/-! The fields of packed words. -/

variable (c : Nibble) (x y : Index) (n : Nibble) (kk : Byte) (nnn : Addr12)

@[simp] theorem fieldC_packXYN : fieldC (packXYN c x y n) = c := by
  apply BitVec.eq_of_toNat_eq
  rw [fieldC_toNat, packXYN_toNat]
  omega

@[simp] theorem fieldX_packXYN : fieldX (packXYN c x y n) = x := by
  apply Fin.ext
  rw [fieldX_val, packXYN_toNat]
  omega

@[simp] theorem fieldY_packXYN : fieldY (packXYN c x y n) = y := by
  apply Fin.ext
  rw [fieldY_val, packXYN_toNat]
  omega

@[simp] theorem fieldN_packXYN : fieldN (packXYN c x y n) = n := by
  apply BitVec.eq_of_toNat_eq
  rw [fieldN_toNat, packXYN_toNat]
  omega

@[simp] theorem fieldC_packXKK : fieldC (packXKK c x kk) = c := by
  apply BitVec.eq_of_toNat_eq
  rw [fieldC_toNat, packXKK_toNat]
  omega

@[simp] theorem fieldX_packXKK : fieldX (packXKK c x kk) = x := by
  apply Fin.ext
  rw [fieldX_val, packXKK_toNat]
  omega

@[simp] theorem fieldKK_packXKK : fieldKK (packXKK c x kk) = kk := by
  apply BitVec.eq_of_toNat_eq
  rw [fieldKK_toNat, packXKK_toNat]
  omega

@[simp] theorem fieldC_packNNN : fieldC (packNNN c nnn) = c := by
  apply BitVec.eq_of_toNat_eq
  rw [fieldC_toNat, packNNN_toNat]
  omega

@[simp] theorem fieldNNN_packNNN : fieldNNN (packNNN c nnn) = nnn := by
  apply BitVec.eq_of_toNat_eq
  rw [fieldNNN_toNat, packNNN_toNat]
  omega

/-- The second nibble of an address word is the top nibble of its address: the fields of Bnnn overlap (R107). -/
theorem fieldX_packNNN_val : (fieldX (packNNN c nnn)).val = nnn.toNat / 256 := by
  rw [fieldX_val, packNNN_toNat]
  omega

/-! Bytes. -/

theorem highByte_toNat (op : Word) : (highByte op).toNat = op.toNat / 256 := by
  have := op.isLt
  simp [highByte, Nat.shiftRight_eq_div_pow]
  omega

theorem lowByte_toNat (op : Word) : (lowByte op).toNat = op.toNat % 256 := by
  simp [lowByte]

/-- The word of a word's two bytes is that word (R54). -/
@[simp] theorem wordOfBytes_high_low (op : Word) : wordOfBytes (highByte op) (lowByte op) = op := by
  apply BitVec.eq_of_toNat_eq
  rw [wordOfBytes, append_toNat, highByte_toNat, lowByte_toNat]
  omega

/-- The decoder on an instruction's own bytes is the decoder on its word. -/
theorem decode_bytes (op : Word) (rest : List Byte) :
    decode (highByte op :: lowByte op :: rest) =
      match decodeWord op with
      | some i => .ok (i, rest)
      | none => .error (.unsupported op) := by
  cases h : decodeWord op <;> simp [decode, h]

/-! The bits of a word under the masks of the opcode map (R74). -/

/-- The bits that fix a whole class. -/
theorem mask_class (op : Word) : op &&& 0xF000 = packNNN (fieldC op) 0 := by
  apply BitVec.eq_of_getLsbD_eq
  intro i hi
  rw [packNNN, BitVec.getLsbD_append, BitVec.getLsbD_and, fieldC, BitVec.getLsbD_extractLsb']
  interval_cases i <;> simp

/-- The bits that fix the class and the low nibble. -/
theorem mask_variant (op : Word) : op &&& 0xF00F = packXYN (fieldC op) 0 0 (fieldN op) := by
  apply BitVec.eq_of_getLsbD_eq
  intro i hi
  rw [packXYN, BitVec.getLsbD_append, BitVec.getLsbD_append, BitVec.getLsbD_append, BitVec.getLsbD_and, fieldC, fieldN,
    BitVec.getLsbD_extractLsb', BitVec.getLsbD_extractLsb']
  interval_cases i <;> simp

/-- The bits that fix the class and the low byte. -/
theorem mask_lowByte (op : Word) : op &&& 0xF0FF = packXKK (fieldC op) 0 (fieldKK op) := by
  apply BitVec.eq_of_getLsbD_eq
  intro i hi
  rw [packXKK, BitVec.getLsbD_append, BitVec.getLsbD_append, BitVec.getLsbD_and, fieldC, fieldKK,
    BitVec.getLsbD_extractLsb', BitVec.getLsbD_extractLsb']
  interval_cases i <;> simp

end Sys2Proof
end

