-- ==== Sys2Proof/Laws/State.lean ====
section
/-!
SUPPORT. One lemma per field per update of State, each true by rfl, so that no proof unfolds a record update; then
what a register read gives after each update.
-/
namespace Sys2Proof.Machine

variable (s : State)

@[simp] theorem State.setV_v (x : Index) (b : Byte) : (s.setV x b).v = s.v.set x b := rfl
@[simp] theorem State.setV_i (x : Index) (b : Byte) : (s.setV x b).i = s.i := rfl
@[simp] theorem State.setV_pc (x : Index) (b : Byte) : (s.setV x b).pc = s.pc := rfl
@[simp] theorem State.setV_sp (x : Index) (b : Byte) : (s.setV x b).sp = s.sp := rfl
@[simp] theorem State.setV_stack (x : Index) (b : Byte) : (s.setV x b).stack = s.stack := rfl
@[simp] theorem State.setV_dt (x : Index) (b : Byte) : (s.setV x b).dt = s.dt := rfl
@[simp] theorem State.setV_st (x : Index) (b : Byte) : (s.setV x b).st = s.st := rfl
@[simp] theorem State.setV_mem (x : Index) (b : Byte) : (s.setV x b).mem = s.mem := rfl
@[simp] theorem State.setV_fb (x : Index) (b : Byte) : (s.setV x b).fb = s.fb := rfl
@[simp] theorem State.setV_keys (x : Index) (b : Byte) : (s.setV x b).keys = s.keys := rfl
@[simp] theorem State.setV_awaiting (x : Index) (b : Byte) : (s.setV x b).awaiting = s.awaiting := rfl
@[simp] theorem State.setV_status (x : Index) (b : Byte) : (s.setV x b).status = s.status := rfl
@[simp] theorem State.setV_config (x : Index) (b : Byte) : (s.setV x b).config = s.config := rfl
@[simp] theorem State.setV_draws (x : Index) (b : Byte) : (s.setV x b).draws = s.draws := rfl

@[simp] theorem State.setI_v (a : Word) : (s.setI a).v = s.v := rfl
@[simp] theorem State.setI_i (a : Word) : (s.setI a).i = a := rfl
@[simp] theorem State.setI_pc (a : Word) : (s.setI a).pc = s.pc := rfl
@[simp] theorem State.setI_sp (a : Word) : (s.setI a).sp = s.sp := rfl
@[simp] theorem State.setI_stack (a : Word) : (s.setI a).stack = s.stack := rfl
@[simp] theorem State.setI_dt (a : Word) : (s.setI a).dt = s.dt := rfl
@[simp] theorem State.setI_st (a : Word) : (s.setI a).st = s.st := rfl
@[simp] theorem State.setI_mem (a : Word) : (s.setI a).mem = s.mem := rfl
@[simp] theorem State.setI_fb (a : Word) : (s.setI a).fb = s.fb := rfl
@[simp] theorem State.setI_keys (a : Word) : (s.setI a).keys = s.keys := rfl
@[simp] theorem State.setI_awaiting (a : Word) : (s.setI a).awaiting = s.awaiting := rfl
@[simp] theorem State.setI_status (a : Word) : (s.setI a).status = s.status := rfl
@[simp] theorem State.setI_config (a : Word) : (s.setI a).config = s.config := rfl
@[simp] theorem State.setI_draws (a : Word) : (s.setI a).draws = s.draws := rfl

@[simp] theorem State.setPc_v (a : Word) : (s.setPc a).v = s.v := rfl
@[simp] theorem State.setPc_i (a : Word) : (s.setPc a).i = s.i := rfl
@[simp] theorem State.setPc_pc (a : Word) : (s.setPc a).pc = a := rfl
@[simp] theorem State.setPc_sp (a : Word) : (s.setPc a).sp = s.sp := rfl
@[simp] theorem State.setPc_stack (a : Word) : (s.setPc a).stack = s.stack := rfl
@[simp] theorem State.setPc_dt (a : Word) : (s.setPc a).dt = s.dt := rfl
@[simp] theorem State.setPc_st (a : Word) : (s.setPc a).st = s.st := rfl
@[simp] theorem State.setPc_mem (a : Word) : (s.setPc a).mem = s.mem := rfl
@[simp] theorem State.setPc_fb (a : Word) : (s.setPc a).fb = s.fb := rfl
@[simp] theorem State.setPc_keys (a : Word) : (s.setPc a).keys = s.keys := rfl
@[simp] theorem State.setPc_awaiting (a : Word) : (s.setPc a).awaiting = s.awaiting := rfl
@[simp] theorem State.setPc_status (a : Word) : (s.setPc a).status = s.status := rfl
@[simp] theorem State.setPc_config (a : Word) : (s.setPc a).config = s.config := rfl
@[simp] theorem State.setPc_draws (a : Word) : (s.setPc a).draws = s.draws := rfl

@[simp] theorem State.setDt_v (b : Byte) : (s.setDt b).v = s.v := rfl
@[simp] theorem State.setDt_i (b : Byte) : (s.setDt b).i = s.i := rfl
@[simp] theorem State.setDt_pc (b : Byte) : (s.setDt b).pc = s.pc := rfl
@[simp] theorem State.setDt_sp (b : Byte) : (s.setDt b).sp = s.sp := rfl
@[simp] theorem State.setDt_stack (b : Byte) : (s.setDt b).stack = s.stack := rfl
@[simp] theorem State.setDt_dt (b : Byte) : (s.setDt b).dt = b := rfl
@[simp] theorem State.setDt_st (b : Byte) : (s.setDt b).st = s.st := rfl
@[simp] theorem State.setDt_mem (b : Byte) : (s.setDt b).mem = s.mem := rfl
@[simp] theorem State.setDt_fb (b : Byte) : (s.setDt b).fb = s.fb := rfl
@[simp] theorem State.setDt_keys (b : Byte) : (s.setDt b).keys = s.keys := rfl
@[simp] theorem State.setDt_awaiting (b : Byte) : (s.setDt b).awaiting = s.awaiting := rfl
@[simp] theorem State.setDt_status (b : Byte) : (s.setDt b).status = s.status := rfl
@[simp] theorem State.setDt_config (b : Byte) : (s.setDt b).config = s.config := rfl
@[simp] theorem State.setDt_draws (b : Byte) : (s.setDt b).draws = s.draws := rfl

@[simp] theorem State.setSt_v (b : Byte) : (s.setSt b).v = s.v := rfl
@[simp] theorem State.setSt_i (b : Byte) : (s.setSt b).i = s.i := rfl
@[simp] theorem State.setSt_pc (b : Byte) : (s.setSt b).pc = s.pc := rfl
@[simp] theorem State.setSt_sp (b : Byte) : (s.setSt b).sp = s.sp := rfl
@[simp] theorem State.setSt_stack (b : Byte) : (s.setSt b).stack = s.stack := rfl
@[simp] theorem State.setSt_dt (b : Byte) : (s.setSt b).dt = s.dt := rfl
@[simp] theorem State.setSt_st (b : Byte) : (s.setSt b).st = b := rfl
@[simp] theorem State.setSt_mem (b : Byte) : (s.setSt b).mem = s.mem := rfl
@[simp] theorem State.setSt_fb (b : Byte) : (s.setSt b).fb = s.fb := rfl
@[simp] theorem State.setSt_keys (b : Byte) : (s.setSt b).keys = s.keys := rfl
@[simp] theorem State.setSt_awaiting (b : Byte) : (s.setSt b).awaiting = s.awaiting := rfl
@[simp] theorem State.setSt_status (b : Byte) : (s.setSt b).status = s.status := rfl
@[simp] theorem State.setSt_config (b : Byte) : (s.setSt b).config = s.config := rfl
@[simp] theorem State.setSt_draws (b : Byte) : (s.setSt b).draws = s.draws := rfl

@[simp] theorem State.setMem_v (m : Memory) : (s.setMem m).v = s.v := rfl
@[simp] theorem State.setMem_i (m : Memory) : (s.setMem m).i = s.i := rfl
@[simp] theorem State.setMem_pc (m : Memory) : (s.setMem m).pc = s.pc := rfl
@[simp] theorem State.setMem_sp (m : Memory) : (s.setMem m).sp = s.sp := rfl
@[simp] theorem State.setMem_stack (m : Memory) : (s.setMem m).stack = s.stack := rfl
@[simp] theorem State.setMem_dt (m : Memory) : (s.setMem m).dt = s.dt := rfl
@[simp] theorem State.setMem_st (m : Memory) : (s.setMem m).st = s.st := rfl
@[simp] theorem State.setMem_mem (m : Memory) : (s.setMem m).mem = m := rfl
@[simp] theorem State.setMem_fb (m : Memory) : (s.setMem m).fb = s.fb := rfl
@[simp] theorem State.setMem_keys (m : Memory) : (s.setMem m).keys = s.keys := rfl
@[simp] theorem State.setMem_awaiting (m : Memory) : (s.setMem m).awaiting = s.awaiting := rfl
@[simp] theorem State.setMem_status (m : Memory) : (s.setMem m).status = s.status := rfl
@[simp] theorem State.setMem_config (m : Memory) : (s.setMem m).config = s.config := rfl
@[simp] theorem State.setMem_draws (m : Memory) : (s.setMem m).draws = s.draws := rfl

@[simp] theorem State.setFb_v (d : Framebuffer) : (s.setFb d).v = s.v := rfl
@[simp] theorem State.setFb_i (d : Framebuffer) : (s.setFb d).i = s.i := rfl
@[simp] theorem State.setFb_pc (d : Framebuffer) : (s.setFb d).pc = s.pc := rfl
@[simp] theorem State.setFb_sp (d : Framebuffer) : (s.setFb d).sp = s.sp := rfl
@[simp] theorem State.setFb_stack (d : Framebuffer) : (s.setFb d).stack = s.stack := rfl
@[simp] theorem State.setFb_dt (d : Framebuffer) : (s.setFb d).dt = s.dt := rfl
@[simp] theorem State.setFb_st (d : Framebuffer) : (s.setFb d).st = s.st := rfl
@[simp] theorem State.setFb_mem (d : Framebuffer) : (s.setFb d).mem = s.mem := rfl
@[simp] theorem State.setFb_fb (d : Framebuffer) : (s.setFb d).fb = d := rfl
@[simp] theorem State.setFb_keys (d : Framebuffer) : (s.setFb d).keys = s.keys := rfl
@[simp] theorem State.setFb_awaiting (d : Framebuffer) : (s.setFb d).awaiting = s.awaiting := rfl
@[simp] theorem State.setFb_status (d : Framebuffer) : (s.setFb d).status = s.status := rfl
@[simp] theorem State.setFb_config (d : Framebuffer) : (s.setFb d).config = s.config := rfl
@[simp] theorem State.setFb_draws (d : Framebuffer) : (s.setFb d).draws = s.draws := rfl

@[simp] theorem State.setAwaiting_v (b : Bool) : (s.setAwaiting b).v = s.v := rfl
@[simp] theorem State.setAwaiting_i (b : Bool) : (s.setAwaiting b).i = s.i := rfl
@[simp] theorem State.setAwaiting_pc (b : Bool) : (s.setAwaiting b).pc = s.pc := rfl
@[simp] theorem State.setAwaiting_sp (b : Bool) : (s.setAwaiting b).sp = s.sp := rfl
@[simp] theorem State.setAwaiting_stack (b : Bool) : (s.setAwaiting b).stack = s.stack := rfl
@[simp] theorem State.setAwaiting_dt (b : Bool) : (s.setAwaiting b).dt = s.dt := rfl
@[simp] theorem State.setAwaiting_st (b : Bool) : (s.setAwaiting b).st = s.st := rfl
@[simp] theorem State.setAwaiting_mem (b : Bool) : (s.setAwaiting b).mem = s.mem := rfl
@[simp] theorem State.setAwaiting_fb (b : Bool) : (s.setAwaiting b).fb = s.fb := rfl
@[simp] theorem State.setAwaiting_keys (b : Bool) : (s.setAwaiting b).keys = s.keys := rfl
@[simp] theorem State.setAwaiting_awaiting (b : Bool) : (s.setAwaiting b).awaiting = b := rfl
@[simp] theorem State.setAwaiting_status (b : Bool) : (s.setAwaiting b).status = s.status := rfl
@[simp] theorem State.setAwaiting_config (b : Bool) : (s.setAwaiting b).config = s.config := rfl
@[simp] theorem State.setAwaiting_draws (b : Bool) : (s.setAwaiting b).draws = s.draws := rfl

@[simp] theorem State.setStatus_v (u : Status) : (s.setStatus u).v = s.v := rfl
@[simp] theorem State.setStatus_i (u : Status) : (s.setStatus u).i = s.i := rfl
@[simp] theorem State.setStatus_pc (u : Status) : (s.setStatus u).pc = s.pc := rfl
@[simp] theorem State.setStatus_sp (u : Status) : (s.setStatus u).sp = s.sp := rfl
@[simp] theorem State.setStatus_stack (u : Status) : (s.setStatus u).stack = s.stack := rfl
@[simp] theorem State.setStatus_dt (u : Status) : (s.setStatus u).dt = s.dt := rfl
@[simp] theorem State.setStatus_st (u : Status) : (s.setStatus u).st = s.st := rfl
@[simp] theorem State.setStatus_mem (u : Status) : (s.setStatus u).mem = s.mem := rfl
@[simp] theorem State.setStatus_fb (u : Status) : (s.setStatus u).fb = s.fb := rfl
@[simp] theorem State.setStatus_keys (u : Status) : (s.setStatus u).keys = s.keys := rfl
@[simp] theorem State.setStatus_awaiting (u : Status) : (s.setStatus u).awaiting = s.awaiting := rfl
@[simp] theorem State.setStatus_status (u : Status) : (s.setStatus u).status = u := rfl
@[simp] theorem State.setStatus_config (u : Status) : (s.setStatus u).config = s.config := rfl
@[simp] theorem State.setStatus_draws (u : Status) : (s.setStatus u).draws = s.draws := rfl

@[simp] theorem State.countDraw_v : (s.countDraw).v = s.v := rfl
@[simp] theorem State.countDraw_i : (s.countDraw).i = s.i := rfl
@[simp] theorem State.countDraw_pc : (s.countDraw).pc = s.pc := rfl
@[simp] theorem State.countDraw_sp : (s.countDraw).sp = s.sp := rfl
@[simp] theorem State.countDraw_stack : (s.countDraw).stack = s.stack := rfl
@[simp] theorem State.countDraw_dt : (s.countDraw).dt = s.dt := rfl
@[simp] theorem State.countDraw_st : (s.countDraw).st = s.st := rfl
@[simp] theorem State.countDraw_mem : (s.countDraw).mem = s.mem := rfl
@[simp] theorem State.countDraw_fb : (s.countDraw).fb = s.fb := rfl
@[simp] theorem State.countDraw_keys : (s.countDraw).keys = s.keys := rfl
@[simp] theorem State.countDraw_awaiting : (s.countDraw).awaiting = s.awaiting := rfl
@[simp] theorem State.countDraw_status : (s.countDraw).status = s.status := rfl
@[simp] theorem State.countDraw_config : (s.countDraw).config = s.config := rfl
@[simp] theorem State.countDraw_draws : (s.countDraw).draws = s.draws + 1 := rfl

@[simp] theorem State.advance_v : (s.advance).v = s.v := rfl
@[simp] theorem State.advance_i : (s.advance).i = s.i := rfl
@[simp] theorem State.advance_pc : (s.advance).pc = s.pc + 2 := rfl
@[simp] theorem State.advance_sp : (s.advance).sp = s.sp := rfl
@[simp] theorem State.advance_stack : (s.advance).stack = s.stack := rfl
@[simp] theorem State.advance_dt : (s.advance).dt = s.dt := rfl
@[simp] theorem State.advance_st : (s.advance).st = s.st := rfl
@[simp] theorem State.advance_mem : (s.advance).mem = s.mem := rfl
@[simp] theorem State.advance_fb : (s.advance).fb = s.fb := rfl
@[simp] theorem State.advance_keys : (s.advance).keys = s.keys := rfl
@[simp] theorem State.advance_awaiting : (s.advance).awaiting = s.awaiting := rfl
@[simp] theorem State.advance_status : (s.advance).status = s.status := rfl
@[simp] theorem State.advance_config : (s.advance).config = s.config := rfl
@[simp] theorem State.advance_draws : (s.advance).draws = s.draws := rfl

/-! Register reads. -/

@[simp] theorem State.getV_setV_self (x : Index) (b : Byte) : (s.setV x b).getV x = b := by
  simp [State.getV]

theorem State.getV_setV (x j : Index) (b : Byte) : (s.setV x b).getV j = if j = x then b else s.getV j := by
  simp only [State.getV, State.setV_v, Fin.getElem_fin, Vector.getElem_set]
  by_cases h : j = x
  · simp [h]
  · rw [if_neg (fun e => h (Fin.ext e.symm)), if_neg h]

@[simp] theorem State.getV_setV_ne {x j : Index} (b : Byte) (h : j ≠ x) : (s.setV x b).getV j = s.getV j := by
  simp [State.getV_setV, h]

@[simp] theorem State.getV_setI (a : Word) (j : Index) : (s.setI a).getV j = s.getV j := rfl
@[simp] theorem State.getV_setPc (a : Word) (j : Index) : (s.setPc a).getV j = s.getV j := rfl
@[simp] theorem State.getV_setDt (b : Byte) (j : Index) : (s.setDt b).getV j = s.getV j := rfl
@[simp] theorem State.getV_setSt (b : Byte) (j : Index) : (s.setSt b).getV j = s.getV j := rfl
@[simp] theorem State.getV_setMem (m : Memory) (j : Index) : (s.setMem m).getV j = s.getV j := rfl
@[simp] theorem State.getV_setFb (d : Framebuffer) (j : Index) : (s.setFb d).getV j = s.getV j := rfl
@[simp] theorem State.getV_setAwaiting (b : Bool) (j : Index) : (s.setAwaiting b).getV j = s.getV j := rfl
@[simp] theorem State.getV_setStatus (u : Status) (j : Index) : (s.setStatus u).getV j = s.getV j := rfl
@[simp] theorem State.getV_countDraw (j : Index) : (s.countDraw).getV j = s.getV j := rfl
@[simp] theorem State.getV_advance (j : Index) : (s.advance).getV j = s.getV j := rfl

/-- Two states with the same register reads have the same register file. -/
theorem State.v_ext {s t : State} (h : ∀ j, s.getV j = t.getV j) : s.v = t.v := by
  apply Vector.ext
  intro k hk
  simpa [State.getV] using h ⟨k, hk⟩

/-- What a conditional skip does to PC. -/
theorem State.skipIf_eq (taken : Bool) : s.skipIf taken = s.setPc (if taken then s.pc + 4 else s.pc + 2) := by
  cases taken <;> rfl

/-- A halt is a next state that differs in its status only. -/
theorem haltWith_eq (r : HaltReason) : haltWith r s = .next (s.setStatus (.halted r)) := rfl

end Sys2Proof.Machine
end

