-- ==== Sys2Proof/Laws/Memory.lean ====
section
/-!
SUPPORT. Memory: read after write, the canonical form kept by every operation, and what a block access can answer.
-/
namespace Sys2Proof.Machine

variable (c : Config)

@[simp] theorem Memory.read_nil (a : Nat) : Memory.read c a [] = unlistedByte c a := rfl

theorem Memory.read_entry (a a' : Nat) (b' : Byte) (m : Memory) :
    Memory.read c a ((a', b') :: m) = if a = a' then b' else Memory.read c a m := rfl

theorem Memory.wfFrom_entry {lo a : Nat} {b : Byte} {m : Memory} :
    Memory.wfFrom c lo ((a, b) :: m) = true ↔
      lo ≤ a ∧ a < 0x1000 ∧ b ≠ unlistedByte c a ∧ Memory.wfFrom c (a + 1) m = true := by
  simp [Memory.wfFrom, and_assoc]

theorem Memory.wfFrom_mono {lo lo' : Nat} (h : lo' ≤ lo) {m : Memory} (hm : Memory.wfFrom c lo m = true) :
    Memory.wfFrom c lo' m = true := by
  cases m with
  | nil => rfl
  | cons e m =>
    obtain ⟨h1, h2⟩ := (Memory.wfFrom_entry c).1 hm
    exact (Memory.wfFrom_entry c).2 ⟨h.trans h1, h2⟩

/-- Below the first address of a memory in canonical form every address reads as unlisted. -/
theorem Memory.read_below {lo a : Nat} (h : a < lo) {m : Memory} (hm : Memory.wfFrom c lo m = true) :
    Memory.read c a m = unlistedByte c a := by
  induction m generalizing lo with
  | nil => rfl
  | cons e m ih =>
    obtain ⟨a', b'⟩ := e
    obtain ⟨h1, -, -, h4⟩ := (Memory.wfFrom_entry c).1 hm
    rw [Memory.read_entry, if_neg (by omega)]
    exact ih (by omega) h4

theorem Memory.read_cons (a j : Nat) (b : Byte) (m : Memory) (hm : Memory.read c a m = unlistedByte c a) :
    Memory.read c j (Memory.cons c a b m) = if j = a then b else Memory.read c j m := by
  by_cases hj : j = a <;> by_cases hb : b = unlistedByte c a <;> simp_all [Memory.cons, Memory.read_entry]

theorem Memory.wfFrom_cons {lo a : Nat} {b : Byte} {m : Memory} (h : lo ≤ a) (ha : a < 0x1000)
    (hm : Memory.wfFrom c (a + 1) m = true) : Memory.wfFrom c lo (Memory.cons c a b m) = true := by
  by_cases hb : b = unlistedByte c a
  · rw [Memory.cons, if_pos hb]
    exact Memory.wfFrom_mono c (by omega) hm
  · rw [Memory.cons, if_neg hb]
    exact (Memory.wfFrom_entry c).2 ⟨h, ha, hb, hm⟩

/-- A store keeps the canonical form. -/
theorem Memory.wfFrom_write {lo a : Nat} {b : Byte} {m : Memory} (h : lo ≤ a) (ha : a < 0x1000)
    (hm : Memory.wfFrom c lo m = true) : Memory.wfFrom c lo (Memory.write c a b m) = true := by
  induction m generalizing lo with
  | nil => exact Memory.wfFrom_cons c h ha rfl
  | cons e m ih =>
    obtain ⟨a', b'⟩ := e
    obtain ⟨h1, h2, h3, h4⟩ := (Memory.wfFrom_entry c).1 hm
    simp only [Memory.write]
    split
    · exact Memory.wfFrom_cons c h ha ((Memory.wfFrom_entry c).2 ⟨by omega, h2, h3, h4⟩)
    · split
      · subst a'
        exact Memory.wfFrom_cons c h ha h4
      · exact (Memory.wfFrom_entry c).2 ⟨h1, h2, h3, ih (by omega) h4⟩

/-- A store changes the byte at its own address and no other: read after write. -/
theorem Memory.read_write {lo a : Nat} (j : Nat) {b : Byte} {m : Memory} (hm : Memory.wfFrom c lo m = true) :
    Memory.read c j (Memory.write c a b m) = if j = a then b else Memory.read c j m := by
  induction m generalizing lo with
  | nil => exact Memory.read_cons c a j b [] rfl
  | cons e m ih =>
    obtain ⟨a', b'⟩ := e
    obtain ⟨h1, h2, h3, h4⟩ := (Memory.wfFrom_entry c).1 hm
    simp only [Memory.write]
    split
    · refine Memory.read_cons c a j b _ ?_
      rw [Memory.read_entry, if_neg (by omega)]
      exact Memory.read_below c (by omega) h4
    · split
      · subst a'
        rw [Memory.read_cons c a j b m (Memory.read_below c (by omega) h4), Memory.read_entry]
        by_cases hj : j = a <;> simp [hj]
      · rw [Memory.read_entry, ih h4, Memory.read_entry]
        by_cases hj : j = a' <;> by_cases hk : j = a <;> simp_all

/-- A store leaves every other address alone, in every memory. -/
theorem Memory.read_write_ne {a j : Nat} {b : Byte} (h : j ≠ a) (m : Memory) :
    Memory.read c j (Memory.write c a b m) = Memory.read c j m := by
  have hc : ∀ m : Memory, Memory.read c j (Memory.cons c a b m) = Memory.read c j m := by
    intro m
    unfold Memory.cons
    split <;> simp [Memory.read_entry, h]
  induction m with
  | nil => exact hc []
  | cons e m ih =>
    obtain ⟨a', b'⟩ := e
    simp only [Memory.write]
    split
    · exact hc _
    · split
      · subst a'
        rw [hc, Memory.read_entry, if_neg h]
      · rw [Memory.read_entry, ih, Memory.read_entry]

/-- A block of stores in range keeps the canonical form. -/
theorem Memory.wfFrom_writeAll {lo base : Nat} (bytes : List Byte) {m : Memory} (h : lo ≤ base)
    (ha : base + bytes.length ≤ 0x1000) (hm : Memory.wfFrom c lo m = true) :
    Memory.wfFrom c lo (Memory.writeAll c base bytes m) = true := by
  induction bytes generalizing base m with
  | nil => exact hm
  | cons b bytes ih =>
    rw [List.length_cons] at ha
    exact ih (by omega) (by omega) (Memory.wfFrom_write c h (by omega) hm)

/-- Outside its addresses a block of stores changes nothing, in every memory. -/
theorem Memory.read_writeAll_outside {base j : Nat} (bytes : List Byte) (m : Memory)
    (h : j < base ∨ base + bytes.length ≤ j) :
    Memory.read c j (Memory.writeAll c base bytes m) = Memory.read c j m := by
  induction bytes generalizing base m with
  | nil => rfl
  | cons b bytes ih =>
    rw [List.length_cons] at h
    rw [Memory.writeAll, ih _ (by omega), Memory.read_write_ne c (by omega)]

/-- Byte k of a block of stores is what its address then reads. -/
theorem Memory.read_writeAll_inside {lo base k : Nat} (bytes : List Byte) {m : Memory} (h : k < bytes.length)
    (hl : lo ≤ base) (ha : base + bytes.length ≤ 0x1000) (hm : Memory.wfFrom c lo m = true) :
    Memory.read c (base + k) (Memory.writeAll c base bytes m) = bytes[k] := by
  induction bytes generalizing base m k with
  | nil => simp at h
  | cons b bytes ih =>
    rw [List.length_cons] at h ha
    have hw := Memory.wfFrom_write c (b := b) hl (by omega) hm
    cases k with
    | zero =>
      rw [Memory.writeAll, Memory.read_writeAll_outside c _ _ (by omega), Memory.read_write c _ hm]
      simp
    | succ k =>
      have := ih (base := base + 1) (k := k) (by omega) (by omega) (by omega) hw
      rw [Memory.writeAll, List.getElem_cons_succ, ← this]
      congr 1
      omega

/-! Blocks, as the instructions use them. -/

/-- What any address reads as after a store in range: the stored byte where there is one, as before elsewhere. -/
theorem Memory.read_writeAll {base : Nat} (a : Nat) (bytes : List Byte) {m : Memory} (hb : base + bytes.length ≤ 0x1000)
    (hm : Memory.wf c m = true) :
    Memory.read c a (Memory.writeAll c base bytes m) =
      if base ≤ a then bytes.getD (a - base) (Memory.read c a m) else Memory.read c a m := by
  split
  · by_cases hl : a - base < bytes.length
    · have h := Memory.read_writeAll_inside c (base := base) bytes hl (Nat.zero_le _) hb hm
      rw [show base + (a - base) = a by omega] at h
      simp [h, List.getD, hl]
    · rw [Memory.read_writeAll_outside c bytes m (by omega)]
      simp [List.getD, hl]
  · exact Memory.read_writeAll_outside c bytes m (by omega)

/-- An access in range, without the arithmetic of an empty block. -/
theorem addressesOk_iff {base len : Nat} : addressesOk base len = true ↔ len = 0 ∨ base + len ≤ 0x1000 := by
  simp [addressesOk]

/-- A block read answers the bytes at its addresses, or none where one of them is out of range. -/
theorem State.readBlock_eq_some {s : State} {base len : Nat} {bytes : List Byte} :
    s.readBlock base len = some bytes ↔ addressesOk base len = true ∧ bytes = s.bytesAt base len := by
  by_cases h : addressesOk base len = true <;> simp [State.readBlock, h, eq_comm (a := bytes)]

theorem State.readBlock_eq_none {s : State} {base len : Nat} :
    s.readBlock base len = none ↔ addressesOk base len = false := by
  unfold State.readBlock
  split <;> simp_all

@[simp] theorem State.bytesAt_length (s : State) (base len : Nat) : (s.bytesAt base len).length = len := by
  simp [State.bytesAt]

theorem State.bytesAt_getElem (s : State) (base len k : Nat) (h : k < (s.bytesAt base len).length) :
    (s.bytesAt base len)[k] = s.byteAt (base + k) := by
  simp [State.bytesAt]

/-- A block write answers the state with memory alone changed, or none where an address is out of range. -/
theorem State.writeBlock_eq_some {s t : State} {base : Nat} {bytes : List Byte} :
    s.writeBlock base bytes = some t ↔
      addressesOk base bytes.length = true ∧ t = s.setMem (Memory.writeAll s.config base bytes s.mem) := by
  by_cases h : addressesOk base bytes.length = true <;> simp [State.writeBlock, h, eq_comm (a := t)]

theorem State.writeBlock_eq_none {s : State} {base : Nat} {bytes : List Byte} :
    s.writeBlock base bytes = none ↔ addressesOk base bytes.length = false := by
  unfold State.writeBlock
  split <;> simp_all

/-- Every memory operation of the model goes through this: what is stored in range keeps the canonical form. -/
theorem Memory.wf_writeAll (base : Nat) (bytes : List Byte) {m : Memory} (h : addressesOk base bytes.length = true)
    (hm : Memory.wf c m = true) : Memory.wf c (Memory.writeAll c base bytes m) = true := by
  rcases addressesOk_iff.1 h with h0 | h1
  · rw [List.length_eq_zero_iff.1 h0]
    exact hm
  · exact Memory.wfFrom_writeAll c bytes (Nat.zero_le _) h1 hm

/-- Reset memory is in canonical form. -/
theorem construct_mem_wf : Memory.wf c (construct c).mem = true := rfl

/-! Memory as constructed, and its dependence on the setting through the font alone (R40, R51). -/

theorem unlistedByte_font (j : Fin 80) : unlistedByte c (c.fontBase.toNat + j.val) = c.fontGlyphs[j] := by
  simp [unlistedByte, Vector.getD]

theorem unlistedByte_outside {a : Nat} (h : a < c.fontBase.toNat ∨ c.fontBase.toNat + 80 ≤ a) :
    unlistedByte c a = 0x00 := by
  unfold unlistedByte
  split
  · have hb : ¬ a - c.fontBase.toNat < 80 := by omega
    simp [Vector.getD, Array.getD, hb]
  · rfl


theorem unlistedByte_congr {c d : Config} (hb : c.fontBase = d.fontBase) (hg : c.fontGlyphs = d.fontGlyphs) (a : Nat) :
    unlistedByte c a = unlistedByte d a := by
  simp only [unlistedByte, hb, hg]

theorem Memory.read_congr {c d : Config} (hb : c.fontBase = d.fontBase) (hg : c.fontGlyphs = d.fontGlyphs) (a : Nat)
    (m : Memory) : Memory.read c a m = Memory.read d a m := by
  induction m with
  | nil => exact unlistedByte_congr hb hg a
  | cons e m ih =>
    obtain ⟨a', b'⟩ := e
    simp only [Memory.read_entry, ih]

theorem Memory.write_congr {c d : Config} (hb : c.fontBase = d.fontBase) (hg : c.fontGlyphs = d.fontGlyphs) (a : Nat)
    (b : Byte) (m : Memory) : Memory.write c a b m = Memory.write d a b m := by
  induction m with
  | nil => simp only [Memory.write, Memory.cons, unlistedByte_congr hb hg]
  | cons e m ih =>
    obtain ⟨a', b'⟩ := e
    simp only [Memory.write, Memory.cons, unlistedByte_congr hb hg, ih]

theorem Memory.writeAll_congr {c d : Config} (hb : c.fontBase = d.fontBase) (hg : c.fontGlyphs = d.fontGlyphs)
    (base : Nat) (bytes : List Byte) (m : Memory) : Memory.writeAll c base bytes m = Memory.writeAll d base bytes m := by
  induction bytes generalizing base m with
  | nil => rfl
  | cons b bytes ih => simp only [Memory.writeAll, Memory.write_congr hb hg, ih]

end Sys2Proof.Machine
end

