-- ==== Sys2Proof/Laws/Machine.lean ====
section
/-!
SUPPORT. One lemma per shared operation beside memory: the return stack, the register blocks, the result and flag, the
pixels and the keys.
-/
namespace Sys2Proof.Machine

variable (s : State)

/-! The return stack. -/

/-- A push answers the state with the address at SP and SP one higher, exactly where SP < 16. -/
theorem State.pushReturn_eq_some {s t : State} {a : Word} :
    s.pushReturn a = some t ↔
      ∃ h : s.sp.val < 16, t = { s with stack := s.stack.set s.sp.val a, sp := ⟨s.sp.val + 1, by omega⟩ } := by
  by_cases h : s.sp.val < 16 <;> simp [State.pushReturn, h, eq_comm (a := t)]

theorem State.pushReturn_eq_none {s : State} {a : Word} : s.pushReturn a = none ↔ s.sp.val = 16 := by
  have := s.sp.isLt
  by_cases h : s.sp.val < 16 <;> simp [State.pushReturn, h] <;> omega

/-- A pop answers the top entry and the state with SP one lower, exactly where SP > 0. -/
theorem State.popReturn_eq_some {s t : State} {a : Word} :
    s.popReturn = some (a, t) ↔
      ∃ h : 0 < s.sp.val, a = s.stack[s.sp.val - 1] ∧ t = { s with sp := ⟨s.sp.val - 1, by omega⟩ } := by
  by_cases h : 0 < s.sp.val <;> simp [State.popReturn, h, eq_comm (a := t), eq_comm (a := a)]

theorem State.popReturn_eq_none {s : State} : s.popReturn = none ↔ s.sp.val = 0 := by
  by_cases h : 0 < s.sp.val <;> simp [State.popReturn, h] <;> omega

/-! Results and flags. -/

/-- After a result and a flag, VF is the flag, V[x] the result unless x = F, and the rest is as before (R144). -/
theorem getV_writeResultAndFlag (x j : Index) (r f : Byte) :
    (writeResultAndFlag x r f s).getV j = if j = vf then f else if j = x then r else s.getV j := by
  simp [writeResultAndFlag, State.getV_setV]

/-- A result and a flag change the register file only. -/
theorem writeResultAndFlag_eq (x : Index) (r f : Byte) :
    writeResultAndFlag x r f s = { s with v := (writeResultAndFlag x r f s).v } := rfl

theorem writeLogicResult_eq (x : Index) (r : Byte) :
    writeLogicResult x r s = { s with v := (writeLogicResult x r s).v } := by
  unfold writeLogicResult
  split <;> rfl

theorem getV_writeLogicResult (x j : Index) (r : Byte) :
    (writeLogicResult x r s).getV j =
      if s.config.quirkLogicVfReset ∧ j = vf then 0x00 else if j = x then r else s.getV j := by
  unfold writeLogicResult
  split <;> simp_all [getV_writeResultAndFlag, State.getV_setV]

/-! Register blocks. -/

/-- Loading consecutive registers changes the register file only. -/
theorem loadRegisters_eq (k : Nat) (bytes : List Byte) (s : State) :
    loadRegisters k bytes s = { s with v := (loadRegisters k bytes s).v } := by
  induction bytes generalizing k s with
  | nil => rfl
  | cons b bytes ih =>
    rw [loadRegisters, ih]
    split <;> rfl

/-- Register j holds byte j - k of the block where the block reaches it, and is as before elsewhere (R214). -/
theorem getV_loadRegisters (k : Nat) (bytes : List Byte) (s : State) (j : Index) :
    (loadRegisters k bytes s).getV j = if k ≤ j.val then (bytes[j.val - k]?).getD (s.getV j) else s.getV j := by
  induction bytes generalizing k s with
  | nil => simp [loadRegisters]
  | cons b bytes ih =>
    rw [loadRegisters, ih]
    have hj := j.isLt
    by_cases h1 : k + 1 ≤ j.val
    · have e : j.val - k = (j.val - (k + 1)) + 1 := by omega
      have hk : k < 16 := by omega
      have hne : j ≠ ⟨k, hk⟩ := fun e => by simp [e] at h1
      rw [if_pos h1, if_pos (by omega), e, List.getElem?_cons_succ, dif_pos hk, State.getV_setV_ne _ _ hne]
    · rw [if_neg h1]
      by_cases h2 : k = j.val
      · subst h2
        simp [hj]
      · rw [if_neg (by omega)]
        split
        · rename_i hk
          exact State.getV_setV_ne _ _ (fun e => h2 (by simp [e]))
        · rfl

@[simp] theorem registersTo_length (x : Index) : (registersTo x s).length = x.val + 1 := by
  simp [registersTo]

theorem registersTo_getElem (x : Index) (k : Nat) (h : k < (registersTo x s).length) :
    (registersTo x s)[k] = s.getV ⟨k, by rw [registersTo_length] at h; omega⟩ := by
  simp [registersTo, State.getV]

@[simp] theorem bcdDigits_length (v : Byte) : (bcdDigits v).length = 3 := rfl

/-- The I update of Fx55 and Fx65 changes I only. -/
theorem incrementI_eq (x : Index) : incrementI x s = { s with i := (incrementI x s).i } := by
  unfold incrementI
  split <;> rfl

/-! Pixels. -/

theorem Framebuffer.pixel_setPixel (fb : Framebuffer) (x px : Fin 64) (y py : Fin 32) (b : Bool) :
    (fb.setPixel x y b).pixel px py = if px = x ∧ py = y then b else fb.pixel px py := by
  simp only [Framebuffer.pixel, Framebuffer.setPixel, Fin.getElem_fin, Vector.getElem_set, Fin.ext_iff]
  by_cases hy : y.val = py.val
  · by_cases hx : x.val = px.val
    · simp [hy, hx]
    · simp [hy, hx, Ne.symm hx]
  · simp [hy, Ne.symm hy]

/-- Two displays with the same pixels are the same. -/
theorem Framebuffer.pixel_ext {d e : Framebuffer} (h : ∀ x y, d.pixel x y = e.pixel x y) : d = e := by
  apply Vector.ext
  intro r hr
  apply Vector.ext
  intro c hc
  simpa [Framebuffer.pixel] using h ⟨c, hc⟩ ⟨r, hr⟩

/-- One sprite bit flips its own pixel and no other, and collides exactly where the pixel was set (R162, R165). -/
theorem blitPixel_spec (x px : Fin 64) (y py : Fin 32) (d : Blit) :
    (blitPixel x y d).1.pixel px py = (d.1.pixel px py ^^ decide (px = x ∧ py = y)) ∧
      (blitPixel x y d).2 = (d.2 || d.1.pixel x y) := by
  refine ⟨?_, rfl⟩
  rw [blitPixel, Framebuffer.pixel_setPixel]
  by_cases h : px = x ∧ py = y
  · simp [h]
  · simp [h]

/-! Keys. -/

/-- Where a key is pressed the lowest-numbered one is found: it is pressed and no lower one is (R183). -/
theorem State.lowestPressed_eq_some {s : State} {k : Index} :
    s.lowestPressed = some k ↔ s.keys[k] = true ∧ ∀ j : Index, j < k → s.keys[j] = false := by
  unfold State.lowestPressed
  rw [List.find?_eq_some_iff_getElem]
  constructor
  · rintro ⟨hk, i, hi, e, hlt⟩
    refine ⟨hk, fun j hj => ?_⟩
    simp only [List.getElem_finRange, Fin.ext_iff, Fin.val_cast] at e
    have := hlt j.val (by rw [Fin.lt_def] at hj; omega)
    simpa using this
  · rintro ⟨hk, hlt⟩
    refine ⟨hk, k.val, by simp, by simp, fun j hj => ?_⟩
    have := hlt ⟨j, by omega⟩ hj
    simpa using this

theorem State.lowestPressed_eq_none {s : State} : s.lowestPressed = none ↔ ∀ k : Index, s.keys[k] = false := by
  simp [State.lowestPressed]

end Sys2Proof.Machine
end

