-- ==== Sys2Proof/Laws/Exec.lean ====
section
/-!
SUPPORT. The meanings with several outcomes in closed form: the condition under which each completes, and the whole next
state. A proof over all instructions cites these and never unfolds the operations they are written with.
-/
namespace Sys2Proof.Machine

/-- RET pops where an address is held and halts where none is (R104). -/
theorem execRet_eq (s : State) :
    execRet s = if h : 0 < s.sp.val then
      .next { s with sp := ⟨s.sp.val - 1, by omega⟩, pc := s.stack[s.sp.val - 1] } else haltWith .stackUnderflow s := by
  by_cases h : 0 < s.sp.val <;> simp [execRet, State.popReturn, h, State.setPc]

/-- CALL pushes where there is room and halts where there is none (R106). -/
theorem execCall_eq (nnn : Addr12) (s : State) :
    execCall nnn s = if h : s.sp.val < 16 then
      .next { s with stack := s.stack.set s.sp.val s.nextPc, sp := ⟨s.sp.val + 1, by omega⟩, pc := zext16 nnn }
      else haltWith .stackOverflow s := by
  by_cases h : s.sp.val < 16 <;> simp [execCall, State.pushReturn, h, State.setPc]

/-- Dxyn blits where its sprite lies in memory and halts where it does not (R162). -/
theorem execDrw_eq (x y : Index) (n : Nibble) (s : State) :
    execDrw x y n s = if addressesOk s.i.toNat n.toNat = true then
      .next ((s.setFb (blitSprite (s.getV x).toNat (s.getV y).toNat (s.bytesAt s.i.toNat n.toNat) s.fb).1).setV vf
        (flagByte (blitSprite (s.getV x).toNat (s.getV y).toNat (s.bytesAt s.i.toNat n.toNat) s.fb).2)).advance
      else haltWith .addressOutOfRange s := by
  by_cases h : addressesOk s.i.toNat n.toNat = true <;> simp [execDrw, spriteAtI, State.readBlock, h]

/-- Fx33 stores its digits where they fit and halts where they do not (R212). -/
theorem execLdBVx_eq (x : Index) (s : State) :
    execLdBVx x s = if addressesOk s.i.toNat 3 = true then
      .next (s.setMem (Memory.writeAll s.config s.i.toNat (bcdDigits (s.getV x)) s.mem)).advance
      else haltWith .addressOutOfRange s := by
  by_cases h : addressesOk s.i.toNat 3 = true <;> simp [execLdBVx, State.writeBlock, h]

/-- Fx55 stores its registers where they fit and halts where they do not (R213). -/
theorem execStoreRegs_eq (x : Index) (s : State) :
    execStoreRegs x s = if addressesOk s.i.toNat (x.val + 1) = true then
      .next { s with
        mem := Memory.writeAll s.config s.i.toNat (registersTo x s) s.mem
        i := if s.config.quirkMemIncrementI then trunc16 (s.i.toNat + x.val + 1) else s.i
        pc := s.pc + 2 }
      else haltWith .addressOutOfRange s := by
  by_cases h : addressesOk s.i.toNat (x.val + 1) = true <;> simp [execStoreRegs, State.writeBlock, h]
  by_cases hq : s.config.quirkMemIncrementI = true <;> simp [incrementI, hq] <;> rfl

/-- Fx65 loads its registers where their bytes lie in memory and halts where they do not (R214). -/
theorem execLoadRegs_eq (x : Index) (s : State) :
    execLoadRegs x s = if addressesOk s.i.toNat (x.val + 1) = true then
      .next { s with
        v := (loadRegisters 0 (s.bytesAt s.i.toNat (x.val + 1)) s).v
        i := if s.config.quirkMemIncrementI then trunc16 (s.i.toNat + x.val + 1) else s.i
        pc := s.pc + 2 }
      else haltWith .addressOutOfRange s := by
  by_cases h : addressesOk s.i.toNat (x.val + 1) = true <;> simp [execLoadRegs, registerBlockAtI, State.readBlock, h]
  rw [loadRegisters_eq]
  by_cases hq : s.config.quirkMemIncrementI = true <;> simp [incrementI, hq] <;> rfl

/-- Fx0A loads the lowest pressed key, or waits (R183). -/
theorem execLdVxK_eq (x : Index) (s : State) :
    execLdVxK x s = if h : s.lowestPressed.isSome = true then
      .next ((s.setV x (trunc8 (s.lowestPressed.get h).val)).setAwaiting false).advance
      else .next (s.setAwaiting true) := by
  cases h : s.lowestPressed <;> simp [execLdVxK, h]

/-- A logic result touches the register file alone (R133 to R135, R144). -/
theorem writeLogicResult_v (x : Index) (r : Byte) (s : State) :
    writeLogicResult x r s =
      { s with v := if s.config.quirkLogicVfReset then (s.v.set x r).set vf 0x00 else s.v.set x r } := by
  unfold writeLogicResult
  split <;> simp_all <;> rfl

/-- The bytes a load reads do not depend on the registers it starts from, and the registers it ends with depend on
nothing else. -/
theorem loadRegisters_v_congr {s t : State} (k : Nat) (bytes : List Byte) (h : s.v = t.v) :
    (loadRegisters k bytes s).v = (loadRegisters k bytes t).v := by
  induction bytes generalizing k s t with
  | nil => exact h
  | cons b rest ih =>
    simp only [loadRegisters]
    apply ih
    split
    · simp [State.setV, h]
    · exact h

end Sys2Proof.Machine
end

