-- ==== Sys2Proof/Laws/PerInstr.lean ====
section
/-!
SUPPORT. A statement for all instructions, one lemma a constructor: the encoder's word belongs to the instruction's row
of the opcode map (30_encoding.md R74), whatever its operands.
-/
namespace Sys2Proof.Laws.EncodesItsRow

/-- The word of the instruction belongs to its row of the opcode map (R74). -/
def Statement (i : Instr) : Prop := (opcodeRow i).matchesWord (encode i) = true

/-- A word belongs to a row that fixes the class alone. -/
theorem class_row {op : Word} {c : Nibble} (h : fieldC op = c) : OpcodeRow.matchesWord ⟨packNNN c 0, 0xF000⟩ op = true := by
  simp only [OpcodeRow.matchesWord, mask_class, h, beq_self_eq_true]

/-- A word belongs to a row that fixes the class and the low nibble. -/
theorem variant_row {op : Word} {c n : Nibble} (h : fieldC op = c) (hn : fieldN op = n) :
    OpcodeRow.matchesWord ⟨packXYN c 0 0 n, 0xF00F⟩ op = true := by
  simp only [OpcodeRow.matchesWord, mask_variant, h, hn, beq_self_eq_true]

/-- A word belongs to a row that fixes the class and the low byte. -/
theorem lowByte_row {op : Word} {c : Nibble} {kk : Byte} (h : fieldC op = c) (hk : fieldKK op = kk) :
    OpcodeRow.matchesWord ⟨packXKK c 0 kk, 0xF0FF⟩ op = true := by
  simp only [OpcodeRow.matchesWord, mask_lowByte, h, hk, beq_self_eq_true]

theorem cls : Statement .cls := rfl
theorem ret : Statement .ret := rfl
theorem jp (nnn : Addr12) : Statement (.jp nnn) := class_row (fieldC_packNNN _ _)
theorem call (nnn : Addr12) : Statement (.call nnn) := class_row (fieldC_packNNN _ _)
theorem seImm (x : Index) (kk : Byte) : Statement (.seImm x kk) := class_row (fieldC_packXKK _ _ _)
theorem sneImm (x : Index) (kk : Byte) : Statement (.sneImm x kk) := class_row (fieldC_packXKK _ _ _)
theorem seReg (x y : Index) : Statement (.seReg x y) := variant_row (fieldC_packXYN _ _ _ _) (fieldN_packXYN _ _ _ _)
theorem ldImm (x : Index) (kk : Byte) : Statement (.ldImm x kk) := class_row (fieldC_packXKK _ _ _)
theorem addImm (x : Index) (kk : Byte) : Statement (.addImm x kk) := class_row (fieldC_packXKK _ _ _)
theorem ldReg (x y : Index) : Statement (.ldReg x y) := variant_row (fieldC_packXYN _ _ _ _) (fieldN_packXYN _ _ _ _)
theorem orReg (x y : Index) : Statement (.orReg x y) := variant_row (fieldC_packXYN _ _ _ _) (fieldN_packXYN _ _ _ _)
theorem andReg (x y : Index) : Statement (.andReg x y) := variant_row (fieldC_packXYN _ _ _ _) (fieldN_packXYN _ _ _ _)
theorem xorReg (x y : Index) : Statement (.xorReg x y) := variant_row (fieldC_packXYN _ _ _ _) (fieldN_packXYN _ _ _ _)
theorem addReg (x y : Index) : Statement (.addReg x y) := variant_row (fieldC_packXYN _ _ _ _) (fieldN_packXYN _ _ _ _)
theorem subReg (x y : Index) : Statement (.subReg x y) := variant_row (fieldC_packXYN _ _ _ _) (fieldN_packXYN _ _ _ _)
theorem shr (x y : Index) : Statement (.shr x y) := variant_row (fieldC_packXYN _ _ _ _) (fieldN_packXYN _ _ _ _)
theorem subnReg (x y : Index) : Statement (.subnReg x y) :=
  variant_row (fieldC_packXYN _ _ _ _) (fieldN_packXYN _ _ _ _)
theorem shl (x y : Index) : Statement (.shl x y) := variant_row (fieldC_packXYN _ _ _ _) (fieldN_packXYN _ _ _ _)
theorem sneReg (x y : Index) : Statement (.sneReg x y) := variant_row (fieldC_packXYN _ _ _ _) (fieldN_packXYN _ _ _ _)
theorem ldI (nnn : Addr12) : Statement (.ldI nnn) := class_row (fieldC_packNNN _ _)
theorem jpV0 (x : Index) (nnn : Addr12) : Statement (.jpV0 x nnn) := class_row (fieldC_packNNN _ _)
theorem rnd (x : Index) (kk : Byte) : Statement (.rnd x kk) := class_row (fieldC_packXKK _ _ _)
theorem drw (x y : Index) (n : Nibble) : Statement (.drw x y n) := class_row (fieldC_packXYN _ _ _ _)
theorem skp (x : Index) : Statement (.skp x) := lowByte_row (fieldC_packXKK _ _ _) (fieldKK_packXKK _ _ _)
theorem sknp (x : Index) : Statement (.sknp x) := lowByte_row (fieldC_packXKK _ _ _) (fieldKK_packXKK _ _ _)
theorem ldVxDt (x : Index) : Statement (.ldVxDt x) := lowByte_row (fieldC_packXKK _ _ _) (fieldKK_packXKK _ _ _)
theorem ldVxK (x : Index) : Statement (.ldVxK x) := lowByte_row (fieldC_packXKK _ _ _) (fieldKK_packXKK _ _ _)
theorem ldDtVx (x : Index) : Statement (.ldDtVx x) := lowByte_row (fieldC_packXKK _ _ _) (fieldKK_packXKK _ _ _)
theorem ldStVx (x : Index) : Statement (.ldStVx x) := lowByte_row (fieldC_packXKK _ _ _) (fieldKK_packXKK _ _ _)
theorem addIVx (x : Index) : Statement (.addIVx x) := lowByte_row (fieldC_packXKK _ _ _) (fieldKK_packXKK _ _ _)
theorem ldFVx (x : Index) : Statement (.ldFVx x) := lowByte_row (fieldC_packXKK _ _ _) (fieldKK_packXKK _ _ _)
theorem ldBVx (x : Index) : Statement (.ldBVx x) := lowByte_row (fieldC_packXKK _ _ _) (fieldKK_packXKK _ _ _)
theorem storeRegs (x : Index) : Statement (.storeRegs x) := lowByte_row (fieldC_packXKK _ _ _) (fieldKK_packXKK _ _ _)
theorem loadRegs (x : Index) : Statement (.loadRegs x) := lowByte_row (fieldC_packXKK _ _ _) (fieldKK_packXKK _ _ _)

end Sys2Proof.Laws.EncodesItsRow
end

