-- ==== Sys2Proof/Laws/Step.lean ====
section
/-!
SUPPORT. Everything one step can do, said once: where it fetches, what it runs, and the three ways it ends without
running an instruction. Proofs about `step` cite these and do not unfold it.
-/
namespace Sys2Proof.Machine

/-- The fetch check fails exactly outside [0x200, 0xFFE] (R101). -/
theorem State.fetchWord_eq_none {s : State} : s.fetchWord = none ↔ s.pc.toNat < 0x200 ∨ 0xFFE < s.pc.toNat := by
  simp [State.fetchWord, fetchable]
  omega

/-- An instruction was fetched: PC passes the fetch check and the word decodes (R101). -/
theorem State.fetchInstr_eq_some {s : State} {i : Instr} :
    s.fetchInstr = some i ↔ ∃ op : Word, s.fetchWord = some op ∧ decodeWord op = some i := by
  simp only [State.fetchInstr, Option.bind_eq_some_iff]

/-- A running engine runs the instruction it fetches. -/
theorem step_of_fetchInstr {s : State} {i : Instr} (hs : s.status = .running) (hf : s.fetchInstr = some i) :
    step s = exec i s := by
  obtain ⟨op, hw, hd⟩ := State.fetchInstr_eq_some.1 hf
  simp only [step, hs, hw, hd]

/-- What a step answers (R101, R244, R245): a halted engine as it was; a failed fetch check; an unsupported word; or the
fetched instruction's own effect. -/
theorem step_cases {s t : State} (h : step s = .next t) :
    (∃ r : HaltReason, s.status = .halted r ∧ t = s) ∨
    s.status = .running ∧
      ((s.fetchWord = none ∧ t = { s with status := .halted .addressOutOfRange }) ∨
      (∃ op : Word, s.fetchWord = some op ∧ decodeWord op = none ∧
        t = { s with status := .halted (.unsupportedInstruction op) }) ∨
      (∃ i : Instr, s.fetchInstr = some i ∧ exec i s = .next t)) := by
  unfold step at h
  split at h
  case h_1 r hr => exact .inl ⟨r, hr, by simpa using h.symm⟩
  case h_2 hr =>
    refine .inr ⟨hr, ?_⟩
    split at h
    case h_1 hf => exact .inl ⟨hf, by simpa [haltWith, State.setStatus] using h.symm⟩
    case h_2 op hf =>
      split at h
      case h_1 hd => exact .inr (.inl ⟨op, hf, hd, by simpa [haltWith, State.setStatus] using h.symm⟩)
      case h_2 i hd => exact .inr (.inr ⟨i, State.fetchInstr_eq_some.2 ⟨op, hf, hd⟩, h⟩)

/-- The rule with a draw given is the rule, but for Cxkk (R100). -/
theorem execWith_cases {r : Byte} {i : Instr} {s t : State} (h : execWith r i s = .next t) :
    exec i s = .next t ∨ ∃ (x : Index) (kk : Byte), i = .rnd x kk ∧ rndWith r x kk s = .next t := by
  unfold execWith at h
  split at h
  · exact .inr ⟨_, _, rfl, h⟩
  · exact .inl h

/-- A step with a draw given runs a fetched instruction with that draw, or is the step. -/
theorem stepWith_cases {r : Byte} {s t : State} (h : stepWith r s = .next t) :
    (∃ i : Instr, s.status = .running ∧ s.fetchInstr = some i ∧ execWith r i s = .next t) ∨ step s = .next t := by
  unfold stepWith at h
  split at h
  case h_1 i hs hf => exact .inl ⟨i, hs, hf, h⟩
  case h_2 => exact .inr h

/-- A machine whose step answers the same state stays in it. -/
theorem run_of_step_same (M : Host.Core) {s : M.State} (h : M.step s = .next s) (k : Nat) : M.run k s = .next s := by
  induction k with
  | zero => rfl
  | succ k ih => rw [Host.Core.run, h]; exact ih

end Sys2Proof.Machine
end

