-- ==== Sys2Proof/Tests/Slice0.lean ====
section
/-!
SUPPORT. The model's own tests. Expected values are those of spec/95_test_vectors.md (vector ids V<n>, examples E<n>) or
are worked out by hand from the rule named; none is the model's own answer pasted back. After them stand the witnesses:
one theorem for each clause of a statement in Certificates/Slice0/Obligations.lean that has hypotheses, with a concrete
state and operands that meet them.
-/
namespace Sys2Proof.Tests
open Sys2Proof.Machine

/-! ## Ill-formed terms are refused -/

theorem test_wf_refuses_jpV0_with_another_register : (Instr.jpV0 0x3 0x210).wf = false := by decide

theorem test_wf_accepts_jpV0_of_its_word : (Instr.jpV0 0x2 0x210).wf = true := by decide

theorem test_wf_refuses_font_past_its_region : Config.wf { defaultConfig with fontBase := 0x1B1 } = false := by decide

theorem test_wf_accepts_font_at_the_end_of_its_region : Config.wf { defaultConfig with fontBase := 0x1B0 } = true := by
  decide

/-- A ROM of n zero bytes fits when n does. -/
theorem romFits_replicate (n : Nat) : romFits (List.replicate n 0x00) = decide (n ≤ 0xE00) := by
  simp only [romFits, List.length_replicate]

theorem test_wf_refuses_rom_too_long : romFits (List.replicate 0xE01 0x00) = false := romFits_replicate 0xE01

theorem test_wf_accepts_longest_rom : romFits (List.replicate 0xE00 0x00) = true := romFits_replicate 0xE00

theorem test_wf_refuses_key_signal : keySignalOk 0x10 = false := by decide

theorem test_wf_refuses_memory_out_of_order : Memory.wf defaultConfig [(0x301, 0x01), (0x300, 0x01)] = false := by decide

theorem test_wf_refuses_memory_entry_as_constructed : Memory.wf defaultConfig [(0x300, 0x00)] = false := by decide

theorem test_wf_refuses_memory_past_0xFFF : Memory.wf defaultConfig [(0x1000, 0x01)] = false := by decide

/-! ## Decoding: one word for every constructor, written out from R71 and R74 -/

theorem test_decode_cls : decodeWord 0b0000000011100000 = some .cls := by decide
theorem test_decode_ret : decodeWord 0b0000000011101110 = some .ret := by decide
theorem test_decode_jp : decodeWord 0b0001001000001000 = some (.jp 0x208) := by decide
theorem test_decode_call : decodeWord 0b0010001100000000 = some (.call 0x300) := by decide
theorem test_decode_seImm : decodeWord 0b0011101000000010 = some (.seImm 0xA 0x02) := by decide
theorem test_decode_sneImm : decodeWord 0b0100001100010001 = some (.sneImm 0x3 0x11) := by decide
theorem test_decode_seReg : decodeWord 0b0101000100100000 = some (.seReg 0x1 0x2) := by decide
theorem test_decode_ldImm : decodeWord 0b0110101000000010 = some (.ldImm 0xA 0x02) := by decide
theorem test_decode_addImm : decodeWord 0b0111000111111111 = some (.addImm 0x1 0xFF) := by decide
theorem test_decode_ldReg : decodeWord 0b1000000100100000 = some (.ldReg 0x1 0x2) := by decide
theorem test_decode_orReg : decodeWord 0b1000000100100001 = some (.orReg 0x1 0x2) := by decide
theorem test_decode_andReg : decodeWord 0b1000000100100010 = some (.andReg 0x1 0x2) := by decide
theorem test_decode_xorReg : decodeWord 0b1000000100100011 = some (.xorReg 0x1 0x2) := by decide
theorem test_decode_addReg : decodeWord 0b1000111100010100 = some (.addReg 0xF 0x1) := by decide
theorem test_decode_subReg : decodeWord 0b1000000100100101 = some (.subReg 0x1 0x2) := by decide
theorem test_decode_shr : decodeWord 0b1000000100100110 = some (.shr 0x1 0x2) := by decide
theorem test_decode_subnReg : decodeWord 0b1000000100100111 = some (.subnReg 0x1 0x2) := by decide
theorem test_decode_shl : decodeWord 0b1000000100101110 = some (.shl 0x1 0x2) := by decide
theorem test_decode_sneReg : decodeWord 0b1001000100100000 = some (.sneReg 0x1 0x2) := by decide
theorem test_decode_ldI : decodeWord 0b1010001011110000 = some (.ldI 0x2F0) := by decide
theorem test_decode_jpV0 : decodeWord 0b1011001000010000 = some (.jpV0 0x2 0x210) := by decide
theorem test_decode_rnd : decodeWord 0b1100001100001111 = some (.rnd 0x3 0x0F) := by decide
theorem test_decode_drw : decodeWord 0b1101000000010101 = some (.drw 0x0 0x1 0x5) := by decide
theorem test_decode_skp : decodeWord 0b1110001010011110 = some (.skp 0x2) := by decide
theorem test_decode_sknp : decodeWord 0b1110001010100001 = some (.sknp 0x2) := by decide
theorem test_decode_ldVxDt : decodeWord 0b1111010000000111 = some (.ldVxDt 0x4) := by decide
theorem test_decode_ldVxK : decodeWord 0b1111001100001010 = some (.ldVxK 0x3) := by decide
theorem test_decode_ldDtVx : decodeWord 0b1111000100010101 = some (.ldDtVx 0x1) := by decide
theorem test_decode_ldStVx : decodeWord 0b1111000100011000 = some (.ldStVx 0x1) := by decide
theorem test_decode_addIVx : decodeWord 0b1111000000011110 = some (.addIVx 0x0) := by decide
theorem test_decode_ldFVx : decodeWord 0b1111001000101001 = some (.ldFVx 0x2) := by decide
theorem test_decode_ldBVx : decodeWord 0b1111000100110011 = some (.ldBVx 0x1) := by decide
theorem test_decode_storeRegs : decodeWord 0b1111001001010101 = some (.storeRegs 0x2) := by decide
theorem test_decode_loadRegs : decodeWord 0b1111111101100101 = some (.loadRegs 0xF) := by decide

/-- The neighbours of V16, V42, V57, V77, V78, V80 and 9xy1 (R79). -/
theorem test_decode_unsupported :
    [0x5121, 0x8128, 0x812F, 0xE29F, 0x0000, 0x0123, 0xF0FF, 0x9121].all (fun op => decodeWord op == none) = true := by
  decide

/-- High byte first (E1, R54), and the bytes after the instruction are left. -/
theorem test_decode_bytes : decode [0x6A, 0x02, 0x3A] = .ok (.ldImm 0xA 0x02, [0x3A]) := by rfl

theorem test_decode_truncated : decode [0x6A] = .error .truncated := by rfl

theorem test_decode_table_word : decodeTableWord 16 0xD015 = some (.drw 0x0 0x1 0x5) := by decide

/-- The opcode map has 34 rows and no two of them overlap (R74, R80). -/
theorem test_opcode_table : opcodeTable.length = 34 ∧ opcodeTable.Pairwise (fun r q => r.overlaps q = false) := by decide

/-! ## One step: the vectors of spec/95_test_vectors.md -/

/-- The state with registers set, in a vector's start state. -/
def withV (l : List (Index × Byte)) (s : State) : State := l.foldl (fun s p => s.setV p.1 p.2) s

/-- The state with bytes of memory set. -/
def withBytes (a : Nat) (bytes : List Byte) (s : State) : State := s.setMem (Memory.writeAll s.config a bytes s.mem)

/-- The state with addresses on the return stack, the first pushed first. -/
def withStack (l : List Word) (s : State) : State := l.foldl (fun s a => ((s.pushReturn a).getD s)) s

/-- The state with keys pressed. -/
def withKeys (l : List Index) (s : State) : State := l.foldl (fun s k => setKey k true s) s

/-- Construction with a setting of the quirks, in the order of R7's table. -/
def withSetting (shiftVy memIncrementI jumpVx logicVfReset : Bool) : State :=
  State.reset.withQuirks shiftVy memIncrementI jumpVx logicVfReset

/-- A next state with a property. -/
def isNext (r : Result) (p : State → Bool) : Bool :=
  match r with
  | .next t => p t
  | .fault _ => false
  | .refused _ => false

/-- One step of the word at PC ends in a state with a property. -/
def after (w : Nat) (s : State) (p : State → Bool) : Bool := isNext (step (s.withFetchWord 16 w)) p

/-- The step halts with a reason, and PC stays (R243). -/
def haltsAt (w : Nat) (s : State) (r : HaltReason) : Bool := after w s fun t => t.status = .halted r ∧ t.pc = s.pc

/-- V46. -/
theorem test_cls : after 0x00E0 (withV [(15, 0x09)] (State.reset.setFb (State.reset.fb.setPixel 5 5 true)))
    (fun t => t.fb = State.reset.fb ∧ t.getV 15 = 0x09 ∧ t.pc = 0x202) = true := by decide

/-- V1. -/
theorem test_ret : after 0x00EE (withStack [0x206] (State.reset.setPc 0x300))
    (fun t => t.sp = 0 ∧ t.pc = 0x206 ∧ t.status = .running) = true := by decide

/-- V2. -/
theorem test_ret_underflow : haltsAt 0x00EE (State.reset.setPc 0x300) .stackUnderflow = true := by decide

/-- V3. -/
theorem test_jp : after 0x1208 (State.reset.setPc 0x204) (fun t => t.pc = 0x208) = true := by decide

/-- V4: the target is not checked here; the next step's fetch halts. -/
theorem test_jp_below_0x200 : after 0x1100 State.reset (fun t => t.pc = 0x100 ∧ t.status = .running ∧
    isNext (step t) (fun u => u.status = .halted .addressOutOfRange ∧ u.pc = 0x100)) = true := by decide

/-- V7: nextPC is pushed even past the program space. -/
theorem test_call : after 0x2ABC (State.reset.setPc 0xFFE)
    (fun t => t.sp = 1 ∧ t.stack[0] = 0x1000 ∧ t.pc = 0xABC) = true := by decide

/-- V6. -/
theorem test_call_overflow : haltsAt 0x2300 (withStack (List.replicate 16 0x202) State.reset) .stackOverflow = true := by
  decide

/-- V9: the sum is not reduced modulo 0x1000. -/
theorem test_jpV0 : after 0xBFFF (withV [(0, 0xFF)] State.reset) (fun t => t.pc = 0x10FE ∧ t.status = .running) = true := by
  decide

/-- V10. -/
theorem test_jpV0_quirk : after 0xB210 (withV [(0, 0x01), (2, 0x04)] (withSetting false false true false))
    (fun t => t.pc = 0x214) = true := by decide

/-- V11. -/
theorem test_seImm_taken : after 0x3A02 (withV [(0xA, 0x02)] (State.reset.setPc 0x202)) (fun t => t.pc = 0x206) = true := by
  decide

/-- V12. -/
theorem test_seImm_not_taken : after 0x3A03 (withV [(0xA, 0x02)] (State.reset.setPc 0x202))
    (fun t => t.pc = 0x204) = true := by decide

/-- V13. -/
theorem test_sneImm_taken : after 0x4311 (withV [(3, 0x10)] (State.reset.setPc 0x210)) (fun t => t.pc = 0x214) = true := by
  decide

/-- V14. -/
theorem test_sneImm_not_taken : after 0x4310 (withV [(3, 0x10)] (State.reset.setPc 0x210))
    (fun t => t.pc = 0x212) = true := by decide

/-- V15. -/
theorem test_seReg_taken : after 0x5120 (withV [(1, 0x33), (2, 0x33)] State.reset) (fun t => t.pc = 0x204) = true := by
  decide

/-- R110. -/
theorem test_seReg_not_taken : after 0x5120 (withV [(1, 0x33)] State.reset) (fun t => t.pc = 0x202) = true := by decide

/-- V17. -/
theorem test_sneReg_taken : after 0x9120 (withV [(1, 0x01), (2, 0x02)] State.reset) (fun t => t.pc = 0x204) = true := by
  decide

/-- V18. -/
theorem test_sneReg_same : after 0x9110 (withV [(1, 0x01)] State.reset) (fun t => t.pc = 0x202) = true := by decide

/-- V20. -/
theorem test_ldImm : after 0x6A02 State.reset (fun t => t.getV 0xA = 0x02 ∧ t.pc = 0x202) = true := by decide

/-- V21: no flag. -/
theorem test_addImm : after 0x71FF (withV [(1, 0x01), (15, 0x55)] State.reset)
    (fun t => t.getV 1 = 0x00 ∧ t.getV 15 = 0x55) = true := by decide

/-- V22: VF as plain destination. -/
theorem test_addImm_VF : after 0x7F01 (withV [(15, 0xFF)] State.reset) (fun t => t.getV 15 = 0x00) = true := by decide

/-- V23. -/
theorem test_ldReg : after 0x8120 (withV [(2, 0x7F)] State.reset) (fun t => t.getV 1 = 0x7F ∧ t.getV 2 = 0x7F) = true := by
  decide

/-- V24. -/
theorem test_orReg : after 0x8121 (withV [(1, 0x0F), (2, 0xF0), (15, 0x77)] State.reset)
    (fun t => t.getV 1 = 0xFF ∧ t.getV 15 = 0x77) = true := by decide

/-- V25. -/
theorem test_orReg_quirk : after 0x8121 (withV [(1, 0x0F), (2, 0xF0), (15, 0x77)] (withSetting false false false true))
    (fun t => t.getV 1 = 0xFF ∧ t.getV 15 = 0x00) = true := by decide

/-- V26. -/
theorem test_andReg : after 0x8122 (withV [(1, 0x3C), (2, 0x0F)] State.reset) (fun t => t.getV 1 = 0x0C) = true := by decide

/-- V27: x = y. -/
theorem test_xorReg : after 0x8113 (withV [(1, 0xAB)] State.reset) (fun t => t.getV 1 = 0x00) = true := by decide

/-- V28. -/
theorem test_addReg_carry : after 0x8124 (withV [(1, 0xFF), (2, 0x01)] State.reset)
    (fun t => t.getV 1 = 0x00 ∧ t.getV 15 = 0x01) = true := by decide

/-- V30: the flag wins. -/
theorem test_addReg_VF : after 0x8F14 (withV [(1, 0x02), (15, 0xFF)] State.reset) (fun t => t.getV 15 = 0x01) = true := by
  decide

/-- V32: equal operands do not borrow. -/
theorem test_subReg_equal : after 0x8125 (withV [(1, 0x05), (2, 0x05)] State.reset)
    (fun t => t.getV 1 = 0x00 ∧ t.getV 15 = 0x01) = true := by decide

/-- V33. -/
theorem test_subReg_borrow : after 0x8125 (withV [(1, 0x03), (2, 0x05)] State.reset)
    (fun t => t.getV 1 = 0xFE ∧ t.getV 15 = 0x00) = true := by decide

/-- V35. -/
theorem test_shr : after 0x8106 (withV [(1, 0x05)] State.reset) (fun t => t.getV 1 = 0x02 ∧ t.getV 15 = 0x01) = true := by
  decide

/-- V36. -/
theorem test_shr_quirk : after 0x8126 (withV [(1, 0x05), (2, 0x80)] (withSetting true false false false))
    (fun t => t.getV 1 = 0x40 ∧ t.getV 2 = 0x80 ∧ t.getV 15 = 0x00) = true := by decide

/-- V38. -/
theorem test_subnReg : after 0x8127 (withV [(1, 0x03), (2, 0x05)] State.reset)
    (fun t => t.getV 1 = 0x02 ∧ t.getV 15 = 0x01) = true := by decide

/-- V39. -/
theorem test_subnReg_borrow : after 0x8127 (withV [(1, 0x05), (2, 0x03)] State.reset)
    (fun t => t.getV 1 = 0xFE ∧ t.getV 15 = 0x00) = true := by decide

/-- V40. -/
theorem test_shl : after 0x810E (withV [(1, 0x81)] State.reset) (fun t => t.getV 1 = 0x02 ∧ t.getV 15 = 0x01) = true := by
  decide

/-- V41. -/
theorem test_shl_quirk : after 0x812E (withV [(1, 0x01), (2, 0x40)] (withSetting true false false false))
    (fun t => t.getV 1 = 0x80 ∧ t.getV 15 = 0x00) = true := by decide

/-- V43. -/
theorem test_ldI : after 0xA2F0 State.reset (fun t => t.i = 0x02F0) = true := by decide

/-- V44: the draw is given. -/
theorem test_rnd : isNext (stepWith 0xA5 (State.reset.withFetchWord 16 0xC30F))
    (fun t => t.getV 3 = 0x05 ∧ t.pc = 0x202) = true := by decide

/-- V45: mask 0 leaves nothing of the draw, whatever it is. -/
theorem test_rnd_mask_zero : isNext (stepWith 0xA5 (State.reset.withFetchWord 16 0xC300)) (fun t => t.getV 3 = 0x00) = true := by
  decide

/-- V49: the start wraps. -/
theorem test_drw_wrap : after 0xD015 (withBytes 0x300 [0xC0] (withV [(0, 67), (1, 34)] (State.reset.setI 0x300)))
    (fun t => t.fb = (State.reset.fb.setPixel 3 2 true).setPixel 4 2 true ∧ t.getV 15 = 0x00) = true := by decide

/-- V52: the coordinates are read before VF is written, and a collision sets it. -/
theorem test_drw_VF : after 0xDFF1
    (withBytes 0x300 [0x80] (withV [(15, 0x02)] ((State.reset.setI 0x300).setFb (State.reset.fb.setPixel 2 2 true))))
    (fun t => t.fb = State.reset.fb ∧ t.getV 15 = 0x01) = true := by decide

/-- V53. -/
theorem test_skp : after 0xE29E (withV [(2, 0x05)] (withKeys [5] State.reset)) (fun t => t.pc = 0x204) = true := by decide

/-- V54. -/
theorem test_skp_no_key : after 0xE29E (withV [(2, 0x05)] State.reset) (fun t => t.pc = 0x202) = true := by decide

/-- V56: 0x15 names no key. -/
theorem test_sknp_above_F : after 0xE2A1 (withV [(2, 0x15)] (withKeys [5] State.reset)) (fun t => t.pc = 0x204) = true := by
  decide

/-- R182: the key is pressed. -/
theorem test_sknp_pressed : after 0xE2A1 (withV [(2, 0x05)] (withKeys [5] State.reset)) (fun t => t.pc = 0x202) = true := by
  decide

/-- V58. -/
theorem test_ldVxK_waits : (after 0xF30A State.reset (fun t => t.pc = 0x200 ∧ t.awaiting = true) &&
    stepOutput (State.reset.withFetchWord 16 0xF30A) == some .awaitingKey) = true := by decide

/-- V59. -/
theorem test_ldVxK_lowest : after 0xF30A ((withKeys [9, 4] State.reset).setAwaiting true)
    (fun t => t.getV 3 = 0x04 ∧ t.pc = 0x202 ∧ t.awaiting = false) = true := by decide

/-- V60. -/
theorem test_ldVxDt : after 0xF407 (State.reset.setDt 0x3C) (fun t => t.getV 4 = 0x3C ∧ t.dt = 0x3C) = true := by decide

/-- V61. -/
theorem test_ldDtVx : after 0xF115 (withV [(1, 0x05)] State.reset) (fun t => t.dt = 0x05 ∧ t.st = 0x00) = true := by decide

/-- V62. -/
theorem test_ldStVx : after 0xF118 (withV [(1, 0x10)] State.reset) (fun t => t.st = 0x10 ∧ t.dt = 0x00) = true := by decide

/-- V63: no flag, no halt past 0xFFF. -/
theorem test_addIVx : after 0xF01E (withV [(0, 0x03)] (State.reset.setI 0xFFE))
    (fun t => t.i = 0x1001 ∧ t.getV 15 = 0x00) = true := by decide

/-- V64. -/
theorem test_addIVx_wraps : after 0xF01E (withV [(0, 0x01)] (State.reset.setI 0xFFFF)) (fun t => t.i = 0x0000) = true := by
  decide

/-- V66: only the low nibble counts. -/
theorem test_ldFVx : after 0xF229 (withV [(2, 0x1A)] State.reset) (fun t => t.i = 0x0032) = true := by decide

/-- V67. -/
theorem test_ldBVx : after 0xF133 (withV [(1, 0xFE)] (State.reset.setI 0x300))
    (fun t => t.byteAt 0x300 = 0x02 ∧ t.byteAt 0x301 = 0x05 ∧ t.byteAt 0x302 = 0x04 ∧ t.i = 0x300) = true := by decide

/-- V69: the addresses are checked before the first digit is stored. -/
theorem test_ldBVx_out_of_range : after 0xF133 (withV [(1, 0x07)] (State.reset.setI 0xFFE))
    (fun t => t.status = .halted .addressOutOfRange ∧ t.byteAt 0xFFE = 0x00 ∧ t.byteAt 0xFFF = 0x00) = true := by decide

/-- V70: V3 is not stored. -/
theorem test_storeRegs : after 0xF255 (withV [(0, 0x11), (1, 0x22), (2, 0x33), (3, 0x44)] (State.reset.setI 0x400))
    (fun t => t.byteAt 0x400 = 0x11 ∧ t.byteAt 0x401 = 0x22 ∧ t.byteAt 0x402 = 0x33 ∧ t.byteAt 0x403 = 0x00 ∧
      t.i = 0x400) = true := by decide

/-- V71. -/
theorem test_storeRegs_quirk : after 0xF255 ((withSetting false true false false).setI 0x400) (fun t => t.i = 0x403) = true := by
  decide

/-- V72: V3 is not loaded. -/
theorem test_loadRegs : after 0xF265 (withBytes 0x400 [0x11, 0x22, 0x33, 0x44] (State.reset.setI 0x400))
    (fun t => t.getV 0 = 0x11 ∧ t.getV 1 = 0x22 ∧ t.getV 2 = 0x33 ∧ t.getV 3 = 0x00 ∧ t.i = 0x400) = true := by decide

/-- V74: the last byte in range. -/
theorem test_loadRegs_last_byte : after 0xFF65 (withBytes 0xFFF [0xAB] (State.reset.setI 0xFF0))
    (fun t => t.getV 15 = 0xAB) = true := by decide

/-! ## The step's checks, the host's moves and reset -/

/-- V75, V76. -/
theorem test_fetch_range : [0x1FE, 0x1FF, 0xFFF, 0x1000].all (fun pc => isNext (step (State.reset.setPc pc))
    fun t => t.status = .halted .addressOutOfRange ∧ t.pc = pc) = true := by decide

/-- V78. -/
theorem test_unsupported_word : haltsAt 0x0123 State.reset (.unsupportedInstruction 0x0123) = true := by decide

/-- V79: an odd PC. -/
theorem test_fetch_odd : isNext (step (withBytes 0x201 [0x12, 0x34] (State.reset.setPc 0x201)))
    (fun t => t.pc = 0x234) = true := by decide

/-- V81: nothing changes once halted. -/
theorem test_halted_stays : isNext (step (State.reset.setStatus (.halted .stackOverflow)))
    (fun t => t = State.reset.setStatus (.halted .stackOverflow)) = true := by decide

/-- V62a: the timers tick apart, floored at 0. -/
theorem test_tick : (tick (State.reset.setSt 0x02)).dt = 0x00 ∧ (tick (State.reset.setSt 0x02)).st = 0x01 := by decide

/-- R258: set_key writes the key it names and no other. -/
theorem test_set_key : ((setKey 15 true (withKeys [3] State.reset)).keys[15], (setKey 15 true (withKeys [3] State.reset)).keys[3],
    (setKey 3 false (withKeys [3] State.reset)).keys[3]) = (true, true, false) := by decide

/-- E4: the key signal 7 presses key 7 alone. -/
theorem test_key_signal : (setPressedKeySignal 0x07 (withKeys [3] State.reset)).toOption.map (fun t => (t.keys[7], t.keys[3])) =
    some (true, false) := by decide

/-- E1's first bytes, loaded and run from construction (R273). -/
theorem test_session : (do
    let p ← (Session.fresh defaultConfig).perform (.loadRom [0x6A, 0x02])
    let p ← p.perform .start
    let p ← p.perform (.step 0x00)
    pure (p.engine.getV 0xA, p.engine.pc)).toOption = some (0x02, 0x202) := by decide

/-- R256: no load once a step has run. -/
theorem test_no_load_after_step : (do
    let p ← (Session.fresh defaultConfig).perform (.step 0x00)
    p.perform (.loadRom [0x6A])).toOption = none := by decide

/-- R37: the first and the last glyph of the default font, at the default base. -/
theorem test_reset_font : (State.reset.bytesAt 0 5, State.reset.bytesAt 75 6) =
    ([0xF0, 0x90, 0x90, 0x90, 0xF0], [0xF0, 0x80, 0xF0, 0x80, 0x80, 0x00]) := by decide

/-- A write of what an address reads as constructed removes its entry, so equal memories are equal data. -/
theorem test_memory_canonical :
    Memory.write defaultConfig 0x300 0x00 (Memory.write defaultConfig 0x300 0x05 []) = [] ∧
    Memory.write defaultConfig 0x000 0xF0 (Memory.write defaultConfig 0x000 0x05 []) = [] := by decide

/-! ## Witnesses for the statements with hypotheses, clause by clause, at the ends of their ranges -/

/-- Reset with a word at PC. -/
def atWord (w : Nat) : State := State.reset.withFetchWord 16 w

/-- Reset with n addresses on the return stack. -/
def deep (n : Nat) : State := withStack (List.replicate n 0x202) State.reset

theorem witness_RetPopsOrUnderflows_empty : (deep 0).sp.val = 0 := by decide
theorem witness_RetPopsOrUnderflows_one : (deep 1).sp.val = (0 : Index).val + 1 := by decide
theorem witness_RetPopsOrUnderflows_full : (deep 16).sp.val = (15 : Index).val + 1 := by decide

theorem witness_CallPushesOrOverflows_full : (deep 16).sp.val = 16 := by decide
theorem witness_CallPushesOrOverflows_room : (deep 15).sp.val < 16 ∧ (deep 0).sp.val < 16 := by decide

theorem witness_JpV0JumpsToExactSum_ends :
    (0 : Index).val = (0x0FF : Addr12).toNat / 256 ∧ (15 : Index).val = (0xFFF : Addr12).toNat / 256 := by decide
theorem witness_JpV0JumpsToExactSum_quirk :
    (withSetting false false true false).config.quirkJumpVx = true ∧ State.reset.config.quirkJumpVx = false := by decide

theorem witness_RegisterSkips_low_nibble : (1 : Nibble) ≠ 0 ∧ (15 : Nibble) ≠ 0 := by decide

theorem witness_CopyAndLogicResults_quirk : (withSetting false false false true).config.quirkLogicVfReset = true ∧
    State.reset.config.quirkLogicVfReset = false ∧ (14 : Index) ≠ 15 := by decide

theorem witness_FlagResult_operands : (0 : Index) ≠ 15 ∧ (1 : Index) ≠ 0 ∧ (1 : Index) ≠ 15 := by decide

theorem witness_ShiftsSetShiftedOutBit_sources :
    (0x05 : Byte) = (if State.reset.config.quirkShiftVy = true then (withV [(1, 0x05)] State.reset).getV 2 else
      (withV [(1, 0x05)] State.reset).getV 1) ∧
    (0x80 : Byte) = (if (withSetting true false false false).config.quirkShiftVy = true then
      (withV [(2, 0x80)] (withSetting true false false false)).getV 2 else
      (withV [(2, 0x80)] (withSetting true false false false)).getV 1) := by decide

theorem witness_RndMasksTheDraw_fetched :
    (atWord 0xC30F).status = .running ∧ (atWord 0xC30F).fetchInstr = some (.rnd 3 0x0F) ∧ (4 : Index) ≠ 3 := by decide

theorem witness_DrwXors_in_range : (1 : Nibble) = 0 ∨ (State.reset.setI 0xFFF).i.toNat + (1 : Nibble).toNat - 1 ≤ 0xFFF := by
  decide
theorem witness_DrwXors_highest_sprite :
    (15 : Nibble) = 0 ∨ (State.reset.setI 0xFF1).i.toNat + (15 : Nibble).toNat - 1 ≤ 0xFFF := by decide
theorem witness_DrwXors_empty : (0 : Nibble) = 0 ∨ (State.reset.setI 0x1000).i.toNat + (0 : Nibble).toNat - 1 ≤ 0xFFF := by
  decide

/-- The default font's glyph 0 at (0, 0), one row: 0xF0. -/
theorem witness_SpriteCovers_first : SpriteCovers State.reset 0 1 1 0 0 := ⟨0, 0, by decide⟩
theorem witness_SpriteCovers_wrapped : SpriteCovers (withV [(0, 61), (1, 31)] State.reset) 0 1 2 0 0 := ⟨1, 3, by decide⟩
theorem witness_SpriteCovers_not : ¬ SpriteCovers State.reset 0 1 1 4 0 := by
  rintro ⟨row, col, h1, h2, h3, h4, -⟩
  have hr : row = 0 := by simpa using h1
  subst hr
  have hv : (State.reset.getV 0).toNat = 0 := by decide
  have hc : col = 4 := by
    rw [hv] at h4
    simp only [Fin.isValue, Nat.zero_add] at h4
    have : col % 64 = col := Nat.mod_eq_of_lt (by omega)
    rw [this] at h4
    exact h4.symm
  subst hc
  exact absurd h3 (by decide)

/-- A row of 0xFF drawn over itself collides; drawn on a clear display it does not. -/
theorem witness_DrwXors_collision : isNext (exec (.drw 0 1 1) (State.reset.setFb (State.reset.fb.setPixel 0 0 true)))
    (fun t => (State.reset.fb.setPixel 0 0 true).pixel 0 0 = true ∧ t.fb.pixel 0 0 = false) = true := by decide
theorem witness_DrwXors_no_collision : ∀ (x : Fin 64) (y : Fin 32), State.reset.fb.pixel x y = false := by
  simp [State.reset, construct, Framebuffer.pixel]

theorem witness_AccessPastMemoryHalts_drw : (1 : Nibble) ≠ 0 ∧ 0xFFF < (State.reset.setI 0x1000).i.toNat + (1 : Nibble).toNat - 1 ∧
    (2 : Nibble) ≠ 0 ∧ 0xFFF < (State.reset.setI 0xFFF).i.toNat + (2 : Nibble).toNat - 1 := by decide
theorem witness_AccessPastMemoryHalts_bcd : 0xFFF < (State.reset.setI 0xFFE).i.toNat + 2 := by decide
theorem witness_AccessPastMemoryHalts_registers : 0xFFF < (State.reset.setI 0xFF1).i.toNat + (15 : Index).val ∧
    0xFFF < (State.reset.setI 0x1000).i.toNat + (0 : Index).val := by decide

theorem witness_KeySkips_pressed : ((withV [(2, 0x0F)] State.reset).getV 2).toNat = (15 : Index).val ∧
    (withKeys [15] State.reset).keys[15] = true := by decide
theorem witness_KeySkips_not_pressed : (State.reset.getV 2).toNat = (0 : Index).val ∧ State.reset.keys[0] = false := by decide
theorem witness_KeySkips_no_key : ((withV [(2, 0x10)] State.reset).getV 2).toNat > 0xF := by decide

theorem witness_KeyWait_lowest : (withKeys [4, 9] (atWord 0xF30A)).keys[4] = true ∧
    (∀ j : Index, j < 4 → (withKeys [4, 9] (atWord 0xF30A)).keys[j] = false) ∧
    (withKeys [4, 9] (atWord 0xF30A)).status = .running ∧
    (withKeys [4, 9] (atWord 0xF30A)).fetchInstr = some (.ldVxK 3) ∧ (0 : Index) ≠ 3 := by decide
theorem witness_KeyWait_none : (∀ k : Index, (atWord 0xF30A).keys[k] = false) ∧ (atWord 0xF30A).status = .running ∧
    (atWord 0xF30A).fetchInstr = some (.ldVxK 3) := by decide

theorem witness_LdFPointsAtGlyph_settings : Config.wf { defaultConfig with fontBase := 0x1B0 } = true ∧
    defaultConfig.wf = true := by decide

theorem witness_BcdStoresDigits_ends : (State.reset.setI 0xFFD).i.toNat + 2 ≤ 0xFFF ∧
    Memory.wf State.reset.config State.reset.mem = true := by decide

theorem witness_StoreRegisters_ends : (State.reset.setI 0xFF0).i.toNat + (15 : Index).val ≤ 0xFFF ∧
    (State.reset.setI 0xFFF).i.toNat + (0 : Index).val ≤ 0xFFF ∧ Memory.wf State.reset.config State.reset.mem = true ∧
    (0 : Index) ≤ 0 ∧ (15 : Index) ≤ 15 := by decide
theorem witness_MemIncrement_quirk : (withSetting false true false false).config.quirkMemIncrementI = true ∧
    State.reset.config.quirkMemIncrementI = false := by decide
theorem witness_LoadRegisters_above : (0 : Index) < 15 ∧ (State.reset.setI 0xFFF).i.toNat + (0 : Index).val ≤ 0xFFF := by
  decide

theorem witness_DecodeOfEncode_wf : (Instr.jpV0 0x2 0x210).wf = true ∧ Instr.cls.wf = true := by decide
theorem witness_EncodeOfDecode_word : decodeWord 0xB210 = some (.jpV0 0x2 0x210) ∧ decodeWord 0xFF65 = some (.loadRegs 15) := by
  decide
theorem witness_DecoderFollowsOpcodeMap_row : decodeWord 0x00EE = some .ret ∧ OpcodeRow.matchesWord ⟨0x00EE, 0xFFFF⟩ 0x00EE = true := by
  decide
theorem witness_UnsupportedWordsHalt_fetched : (atWord 0x8128).status = .running ∧ (atWord 0x8128).fetchWord = some 0x8128 ∧
    decodeWord 0x8128 = none := by decide

/-- The two ends of the program space. -/
theorem witness_StepRuns_first : (atWord 0x1234).status = .running ∧ 0x200 ≤ (atWord 0x1234).pc.toNat ∧
    (atWord 0x1234).pc.toNat ≤ 0xFFE ∧
    decode [(atWord 0x1234).byteAt 0x200, (atWord 0x1234).byteAt 0x201] = .ok (.jp 0x234, []) :=
  ⟨by decide, by decide, by decide, by rfl⟩
theorem witness_StepRuns_last : ((State.reset.setPc 0xFFE).withFetchWord 16 0x2ABC).pc.toNat = 0xFFE ∧
    decode [((State.reset.setPc 0xFFE).withFetchWord 16 0x2ABC).byteAt 0xFFE,
      ((State.reset.setPc 0xFFE).withFetchWord 16 0x2ABC).byteAt 0xFFF] = .ok (.call 0xABC, []) :=
  ⟨by decide, by rfl⟩

theorem witness_StepChecks_halted : (State.reset.setStatus (.halted .stackOverflow)).status = .halted .stackOverflow := by decide
theorem witness_StepChecks_range : (State.reset.setPc 0x1FF).status = .running ∧ (State.reset.setPc 0x1FF).pc.toNat < 0x200 ∧
    (State.reset.setPc 0xFFF).status = .running ∧ 0xFFE < (State.reset.setPc 0xFFF).pc.toNat := by decide
theorem witness_StepChecks_unsupported : State.reset.status = .running ∧ 0x200 ≤ State.reset.pc.toNat ∧
    State.reset.pc.toNat ≤ 0xFFE ∧
    (0x0000 : Word).toNat = (State.reset.byteAt 0x200).toNat * 256 + (State.reset.byteAt 0x201).toNat ∧
    decodeWord 0x0000 = none := by decide

/-- One step from each cause of R240. -/
theorem witness_HaltCauses_unsupported : ∃ t : State, State.reset.status = .running ∧ step State.reset = .next t ∧
    t.status = .halted (.unsupportedInstruction 0x0000) := ⟨_, by decide, rfl, by decide⟩
theorem witness_HaltCauses_overflow : ∃ t : State, step ((deep 16).withFetchWord 16 0x2300) = .next t ∧
    t.status = .halted .stackOverflow := ⟨_, rfl, by decide⟩
theorem witness_HaltCauses_underflow : ∃ t : State, step (atWord 0x00EE) = .next t ∧
    t.status = .halted .stackUnderflow := ⟨_, rfl, by decide⟩
theorem witness_HaltCauses_address : ∃ t : State, step ((State.reset.setI 0xFFF).withFetchWord 16 0xD012) = .next t ∧
    t.status = .halted .addressOutOfRange := ⟨_, rfl, by decide⟩

theorem witness_StepMovesPc_skip : ∃ t : State, (atWord 0x3000).status = .running ∧
    (atWord 0x3000).fetchInstr = some (.seImm 0 0x00) ∧ step (atWord 0x3000) = .next t ∧ t.status = .running ∧
    t.pc = 0x204 := ⟨_, by decide, by decide, rfl, by decide, by decide⟩
theorem witness_StepMovesPc_halt : ∃ t : State, (atWord 0x00EE).fetchInstr = some .ret ∧ step (atWord 0x00EE) = .next t ∧
    t.status ≠ .running := ⟨_, by decide, rfl, by decide⟩
theorem witness_StepReturnsItsStatus_waits : ∃ t : State, step (atWord 0xF30A) = .next t ∧ t.status = .running ∧
    ∀ k : Index, (atWord 0xF30A).keys[k] = false := ⟨_, rfl, by decide, by decide⟩

theorem witness_OnlyRndReadsTheDraw_other : ∀ (x : Index) (kk : Byte), (atWord 0x1234).fetchInstr ≠ some (.rnd x kk) := by
  intro x kk
  have h : (atWord 0x1234).fetchInstr = some (.jp 0x234) := by decide
  rw [h]
  exact fun e => Instr.noConfusion (Option.some.inj e)

theorem witness_Registers_destination : ∃ t : State, exec (.addReg 1 2) State.reset = .next t ∧
    (Instr.addReg 1 2).destination ≠ some 3 ∧ (3 : Index) ≠ 15 := ⟨_, rfl, by decide, by decide⟩
theorem witness_Registers_range : ∃ t : State, exec (.loadRegs 2) State.reset = .next t ∧ (2 : Index) < 3 := ⟨_, rfl, by decide⟩
theorem witness_Registers_VF : ∃ t : State, exec (.orReg 1 2) State.reset = .next t ∧
    (Instr.orReg 1 2).destination ≠ some 15 ∧ (Instr.orReg 1 2).writesFlag State.reset.config = false :=
  ⟨_, rfl, by decide, by decide⟩

theorem witness_IndexChanged_add : ∃ t : State, exec (.addIVx 1) (withV [(1, 0x01)] State.reset) = .next t ∧ t.i ≠ 0x0000 :=
  ⟨_, rfl, by decide⟩
theorem witness_IndexChanged_quirk : ∃ t : State, exec (.storeRegs 0) ((withSetting false true false false).setI 0x300) = .next t ∧
    t.i ≠ 0x300 := ⟨_, rfl, by decide⟩

theorem witness_Stack_call : ∃ t : State, exec (.call 0x300) (deep 15) = .next t ∧ t.sp ≠ (deep 15).sp ∧
    t.stack[15] ≠ (deep 15).stack[15] := ⟨_, rfl, by decide, by decide⟩
theorem witness_Stack_dead_entry : ∃ t : State, exec .ret (deep 1) = .next t ∧ (deep 1).sp.val ≤ (1 : Index).val ∧
    t.sp ≠ (deep 1).sp := ⟨_, rfl, by decide, by decide⟩

theorem witness_Timers_changed : ∃ t u : State, exec (.ldDtVx 1) (withV [(1, 0x05)] State.reset) = .next t ∧ t.dt ≠ 0x00 ∧
    exec (.ldStVx 1) (withV [(1, 0x05)] State.reset) = .next u ∧ u.st ≠ 0x00 := ⟨_, _, rfl, by decide, rfl, by decide⟩

theorem witness_Pixels_changed : ∃ t : State, exec (.drw 0 1 1) State.reset = .next t ∧
    t.fb.pixel 0 0 ≠ State.reset.fb.pixel 0 0 := ⟨_, rfl, by decide⟩

theorem witness_Memory_stored : ∃ t : State, exec (.storeRegs 0) (withV [(0, 0x11)] (State.reset.setI 0x300)) = .next t ∧
    t.byteAt 0x300 ≠ State.reset.byteAt 0x300 := ⟨_, rfl, by decide⟩
theorem witness_Memory_not_accessed : ∃ t : State, exec .cls State.reset = .next t ∧ Instr.cls.accessesMemory = false :=
  ⟨_, rfl, by decide⟩

theorem witness_Keys_not_read : ∃ t : State, exec (.ldFVx 1) State.reset = .next t ∧ (Instr.ldFVx 1).readsKeys = false :=
  ⟨_, rfl, by decide⟩

theorem witness_Awaiting_operands : Instr.ldVxK 3 = .ldVxK 3 ∧ ∀ k : Index, State.reset.keys[k] = false := by decide
theorem witness_Awaiting_changed : ∃ t : State, exec (.ldVxK 3) State.reset = .next t ∧ t.awaiting ≠ State.reset.awaiting :=
  ⟨_, rfl, by decide⟩

theorem witness_Quirks_none : ∃ t : State, exec (.addReg 1 2) State.reset = .next t ∧ (Instr.addReg 1 2).hasQuirk = false :=
  ⟨_, rfl, by decide⟩

/-- A state with a live stack entry meets the invariant, and a step of it, one that stores, ends in a next state. -/
theorem witness_StepKeepsInvariant_live : (withStack [0x202, 0x1000] ((State.reset.setI 0x300).withFetchWord 16 0xF133)).Inv := by
  decide
theorem witness_StepKeepsInvariant_step : ∃ t : State,
    step (withStack [0x202, 0x1000] ((State.reset.setI 0x300).withFetchWord 16 0xF133)) = .next t := ⟨_, rfl⟩

theorem witness_StepKeepsKeyWait_awaiting : ((atWord 0xF30A).setAwaiting true).KeyWaitInv :=
  fun _ => ⟨by decide, 3, by decide⟩
theorem witness_StepKeepsKeyWait_step : ∃ t : State, step ((atWord 0xF30A).setAwaiting true) = .next t ∧
    ((atWord 0xF30A).setAwaiting true).awaiting = true ∧ ∀ k : Index, ((atWord 0xF30A).setAwaiting true).keys[k] = false :=
  ⟨_, rfl, by decide, by decide⟩

/-- A session that waits at an Fx0A meets the invariants, and the host's moves go on from it. -/
def waiting : Session := { engine := (atWord 0xF30A).setAwaiting true, loaded := true, begun := true }

theorem witness_SessionInv_waiting : waiting.Inv :=
  ⟨by decide, fun _ => ⟨by decide, 3, by decide⟩, fun _ => by decide⟩
theorem witness_SessionInv_moves : ∃ q r : Session, waiting.perform (.setKey 3 true) = .ok q ∧
    q.perform (.step 0x5A) = .ok r ∧ r.engine.awaiting = false := ⟨_, _, rfl, rfl, by decide⟩

theorem witness_Reachable_loaded : ∃ p q : Session, p.Reachable ∧ q.Reachable ∧ p.perform (.step 0x5A) = .ok q ∧
    q.engine.awaiting = true :=
  ⟨_, _, .perform (.loadRom [0xF3, 0x0A]) _ _ (.fresh defaultConfig (by decide)) rfl,
    .perform (.step 0x5A) _ _ (.perform (.loadRom [0xF3, 0x0A]) _ _ (.fresh defaultConfig (by decide)) rfl) rfl, rfl, by decide⟩

/-- Fx55 at 0x200 with I = 0x202: both bytes of the next word are stored. -/
theorem witness_StoresReachTheNextFetch_both : ∃ t : State, Memory.wf defaultConfig (State.reset.setI 0x202).mem = true ∧
    exec (.storeRegs 1) (State.reset.setI 0x202) = .next t ∧ State.reset.status = .running ∧ t.status = .running ∧
    0x200 ≤ t.pc.toNat ∧ t.pc.toNat ≤ 0xFFE := ⟨_, by decide, rfl, by decide, by decide, by decide, by decide⟩

/-- Fx33 at 0xFFC with I = 0xFFC: the last fetchable word, of which the store reaches the first byte only. -/
theorem witness_StoresReachTheNextFetch_one : ∃ t : State,
    exec (.ldBVx 1) ((withV [(1, 0xFE)] (State.reset.setI 0xFFC)).setPc 0xFFC) = .next t ∧ t.status = .running ∧
    t.pc.toNat = 0xFFE ∧ t.byteAt 0xFFE = 0x04 ∧
    ([0x02, 0x05, 0x04] : List Byte).map BitVec.toNat =
      [(0xFE : Byte).toNat / 100, (0xFE : Byte).toNat / 10 % 10, (0xFE : Byte).toNat % 10] :=
  ⟨_, rfl, by decide, by decide, by decide, by decide⟩

theorem witness_LoadAfterStore_ends : Memory.wf defaultConfig (State.reset.setI 0xFF0).mem = true ∧
    (State.reset.setI 0xFF0).i.toNat + (15 : Index).val ≤ 0xFFF := by decide

theorem witness_RetResumesAfterCall_deepest : (deep 15).sp.val < 16 ∧ (14 : Index).val < (deep 15).sp.val := by decide

theorem witness_DrawingTwice_operands : (0 : Index) ≠ 15 ∧ (14 : Index) ≠ 15 ∧
    ((1 : Nibble) = 0 ∨ (State.reset.setI 0xFFF).i.toNat + (1 : Nibble).toNat - 1 ≤ 0xFFF) := by decide

theorem witness_ConstructionValues_around_font : (0x04F < (0x050 : Addr12).toNat) ∧ (0x050 : Addr12).toNat + 80 ≤ 0x0A0 := by decide

theorem witness_KeySignalSetsKeys_other_key : (0 : Index) ≠ 15 ∧ (14 : Index) ≠ 15 := by decide
theorem witness_KeySignalSetsKeys_ends : (0x0F : Byte).toNat = (15 : Index).val ∧ (15 : Index) ≠ 0 ∧
    (0x01 : Byte).toNat = (1 : Index).val ∧ (1 : Index) ≠ 0 ∧ (0x10 : Byte).toNat > 0xF := by decide

theorem witness_LoadRomPlacesProgram_ends : (List.replicate 0xE00 (0x00 : Byte)).length ≤ 0xE00 ∧
    (List.replicate 0xE01 (0x00 : Byte)).length > 0xE00 ∧ defaultConfig.wf = true :=
  ⟨by rw [List.length_replicate], by rw [List.length_replicate]; decide, by decide⟩

theorem witness_FirstStepRunsTheRom_longest : defaultConfig.wf = true ∧ (Instr.jpV0 0x2 0x210).wf = true ∧
    (List.replicate 0xDFE (0x00 : Byte)).length ≤ 0xDFE := ⟨by decide, by decide, by rw [List.length_replicate]⟩

theorem witness_HostMoves_begun : ∃ p : Session, (Session.fresh defaultConfig).perform (.step 0x00) = .ok p ∧ p.begun = true :=
  ⟨_, rfl, by decide⟩
theorem witness_HostMoves_not_loaded : (Session.fresh defaultConfig).loaded = false := by decide
theorem witness_HostMoves_tick : ∃ q : Session, (Session.fresh defaultConfig).perform .tick = .ok q := ⟨_, rfl⟩

end Sys2Proof.Tests
end

/-!
PROOF. The awaiting status as Fx0A's own (R35, R183). Setting `awaiting` beforehand commutes with every other
instruction; set to the value it has, it comes out at that value, so such an instruction leaves it unchanged. Fx0A looks
at the keys and never at `awaiting`, which it writes either way.
-/
namespace Sys2Proof.Machine

variable {s t : State} (b : Bool)

/-! The operations that branch on the state commute with setting `awaiting`; the straight-line ones do so by `rfl`. -/

theorem State.skipIf_setAwaiting (s : State) (taken : Bool) :
    (s.setAwaiting b).skipIf taken = (s.skipIf taken).setAwaiting b := by
  simp only [State.skipIf_eq]; rfl

theorem writeLogicResult_setAwaiting (x : Index) (r : Byte) (s : State) :
    writeLogicResult x r (s.setAwaiting b) = (writeLogicResult x r s).setAwaiting b := by
  simp only [writeLogicResult_v]; rfl

theorem loadRegisters_v_setAwaiting (k : Nat) (bytes : List Byte) (s : State) :
    (loadRegisters k bytes (s.setAwaiting b)).v = (loadRegisters k bytes s).v :=
  loadRegisters_v_congr k bytes rfl

/-! The instructions that may halt: their check does not see `awaiting`, and neither outcome reads it. -/

/-- RET and CALL: where the completions agree up to `awaiting`, so do the results. -/
theorem dite_haltWith_setAwaiting {c : Prop} [Decidable c] {r : HaltReason} {p q : c → State}
    (hq : ∀ hc, q hc = (p hc).setAwaiting b) (h : (if hc : c then .next (p hc) else haltWith r s) = .next t) :
    (if hc : c then .next (q hc) else haltWith r (s.setAwaiting b)) = .next (t.setAwaiting b) := by
  split <;> rename_i hc
  · rw [dif_pos hc] at h; cases h; rw [hq]
  · rw [dif_neg hc] at h; cases h; rfl

/-- Dxyn, Fx33, Fx55 and Fx65: the same for their address check, whose completion takes no proof. -/
theorem ite_haltWith_setAwaiting {c : Prop} [Decidable c] {r : HaltReason} {p q : State} (hq : q = p.setAwaiting b)
    (h : (if c then .next p else haltWith r s) = .next t) :
    (if c then .next q else haltWith r (s.setAwaiting b)) = .next (t.setAwaiting b) :=
  dite_haltWith_setAwaiting b (p := fun _ => p) (fun _ => hq) h

theorem execRet_setAwaiting (h : execRet s = .next t) : execRet (s.setAwaiting b) = .next (t.setAwaiting b) := by
  rw [execRet_eq] at h ⊢
  exact dite_haltWith_setAwaiting b (fun _ => rfl) h

theorem execCall_setAwaiting (nnn : Addr12) (h : execCall nnn s = .next t) :
    execCall nnn (s.setAwaiting b) = .next (t.setAwaiting b) := by
  rw [execCall_eq] at h ⊢
  exact dite_haltWith_setAwaiting b (fun _ => rfl) h

theorem execDrw_setAwaiting (x y : Index) (n : Nibble) (h : execDrw x y n s = .next t) :
    execDrw x y n (s.setAwaiting b) = .next (t.setAwaiting b) := by
  rw [execDrw_eq] at h ⊢
  exact ite_haltWith_setAwaiting b rfl h

theorem execLdBVx_setAwaiting (x : Index) (h : execLdBVx x s = .next t) :
    execLdBVx x (s.setAwaiting b) = .next (t.setAwaiting b) := by
  rw [execLdBVx_eq] at h ⊢
  exact ite_haltWith_setAwaiting b rfl h

theorem execStoreRegs_setAwaiting (x : Index) (h : execStoreRegs x s = .next t) :
    execStoreRegs x (s.setAwaiting b) = .next (t.setAwaiting b) := by
  rw [execStoreRegs_eq] at h ⊢
  exact ite_haltWith_setAwaiting b rfl h

theorem execLoadRegs_setAwaiting (x : Index) (h : execLoadRegs x s = .next t) :
    execLoadRegs x (s.setAwaiting b) = .next (t.setAwaiting b) := by
  rw [execLoadRegs_eq] at h ⊢
  rw [loadRegisters_v_setAwaiting]
  exact ite_haltWith_setAwaiting b rfl h

/-- Every instruction but Fx0A runs as it would with any other value of `awaiting`, and passes that value on. -/
theorem exec_setAwaiting {i : Instr} (hi : ∀ x, i ≠ .ldVxK x) (h : exec i s = .next t) :
    exec i (s.setAwaiting b) = .next (t.setAwaiting b) := by
  cases i with
  | ldVxK x => exact absurd rfl (hi x)
  | ret => exact execRet_setAwaiting b h
  | call nnn => exact execCall_setAwaiting b nnn h
  | drw x y n => exact execDrw_setAwaiting b x y n h
  | ldBVx x => exact execLdBVx_setAwaiting b x h
  | storeRegs x => exact execStoreRegs_setAwaiting b x h
  | loadRegs x => exact execLoadRegs_setAwaiting b x h
  | seImm | sneImm | seReg | sneReg | skp | sknp =>
    cases h
    exact congrArg _ (State.skipIf_setAwaiting b s _)
  | orReg | andReg | xorReg =>
    cases h
    exact congrArg (fun u : State => (.next u.advance : Result)) (writeLogicResult_setAwaiting b _ _ s)
  | _ => cases h; rfl

/-- The frame of R35: the commutation, taken at the value `awaiting` already has. -/
theorem exec_awaiting {i : Instr} (hi : ∀ x, i ≠ .ldVxK x) (h : exec i s = .next t) : t.awaiting = s.awaiting := by
  have hs : exec i s = .next (t.setAwaiting s.awaiting) := exec_setAwaiting s.awaiting hi h
  have ht : t = t.setAwaiting s.awaiting := Host.Outcome.next.inj (h.symm.trans hs)
  rw [ht, State.setAwaiting_awaiting]

/-! Fx0A. -/

/-- Fx0A ends awaiting exactly where it finds no key pressed (R183; D22). -/
theorem execLdVxK_awaiting (x : Index) (h : execLdVxK x s = .next t) :
    t.awaiting = true ↔ ∀ k : Index, s.keys[k] = false := by
  rw [execLdVxK] at h
  rw [← State.lowestPressed_eq_none]
  cases hk : s.lowestPressed with
  | none => rw [hk] at h; cases h; simp
  | some k => rw [hk] at h; cases h; simp

/-- Fx0A overwrites `awaiting` whatever it was. -/
theorem execLdVxK_setAwaiting (x : Index) (s : State) : execLdVxK x (s.setAwaiting b) = execLdVxK x s := by
  have hk : (s.setAwaiting b).lowestPressed = s.lowestPressed := rfl
  rw [execLdVxK, execLdVxK, hk]
  cases s.lowestPressed <;> rfl

/-- Whatever `awaiting` is set to, an instruction ends in the same state up to `awaiting`. -/
theorem exec_setAwaiting_agrees {i : Instr} (h : exec i s = .next t) :
    ∃ u : State, exec i (s.setAwaiting b) = .next u ∧ u = { t with awaiting := u.awaiting } := by
  by_cases hi : ∃ x, i = .ldVxK x
  · obtain ⟨x, rfl⟩ := hi
    exact ⟨t, (execLdVxK_setAwaiting b x s).trans h, rfl⟩
  · exact ⟨t.setAwaiting b, exec_setAwaiting b (not_exists.mp hi) h, rfl⟩

end Sys2Proof.Machine

namespace Sys2Proof.Proofs

open Sys2Proof.Machine

/-- Settles O45: Fx0A by its two outcomes, every other instruction by commutation with setting `awaiting`. -/
theorem awaitingAffectsNoInstruction : Obligations.AwaitingAffectsNoInstruction := by
  intro i s t h
  refine ⟨?_, ?_, fun b => exec_setAwaiting_agrees b h⟩
  · rintro x rfl
    exact execLdVxK_awaiting x h
  · intro hne
    by_contra hi
    exact hne (exec_awaiting (not_exists.mp hi) h)

end Sys2Proof.Proofs

/-!
PROOF. JP and the skips on an immediate (R105, R108, R109). A word numbered class first is the word packed from its
fields, so the decoder reads the fields back; the meanings change PC and nothing else.
-/
namespace Sys2Proof

/-- The word numbered by its class and its address is the packed word (R71). -/
theorem ofNat_eq_packNNN (c : Nibble) (nnn : Addr12) :
    BitVec.ofNat 16 (0x1000 * c.toNat + nnn.toNat) = packNNN c nnn := by
  apply BitVec.eq_of_toNat_eq
  rw [BitVec.toNat_ofNat, packNNN_toNat]
  omega

/-- The word numbered by its class, its register and its immediate is the packed word (R71). -/
theorem ofNat_eq_packXKK (c : Nibble) (x : Index) (kk : Byte) :
    BitVec.ofNat 16 (0x1000 * c.toNat + 0x100 * x.val + kk.toNat) = packXKK c x kk := by
  apply BitVec.eq_of_toNat_eq
  rw [BitVec.toNat_ofNat, packXKK_toNat]
  omega

/-! The classes that the major nibble alone decides (R74): the operands are the word's fields. -/

theorem decodeWord_packNNN_jp (nnn : Addr12) : decodeWord (packNNN 0x1 nnn) = some (.jp nnn) := by
  simp [decodeWord]

theorem decodeWord_packXKK_seImm (x : Index) (kk : Byte) : decodeWord (packXKK 0x3 x kk) = some (.seImm x kk) := by
  simp [decodeWord]

theorem decodeWord_packXKK_sneImm (x : Index) (kk : Byte) : decodeWord (packXKK 0x4 x kk) = some (.sneImm x kk) := by
  simp [decodeWord]

end Sys2Proof

namespace Sys2Proof.Machine

/-- Zero extension keeps the number of an address (R10). -/
theorem zext16_toNat (nnn : Addr12) : (zext16 nnn).toNat = nnn.toNat :=
  BitVec.toNat_setWidth_of_le (by decide)

/-- SE with an immediate, in closed form (R108). -/
theorem execSeImm_eq (x : Index) (kk : Byte) (s : State) :
    execSeImm x kk s = .next { s with pc := if s.getV x = kk then s.pc + 4 else s.pc + 2 } := by
  simp only [execSeImm, State.skipIf_eq, State.setPc, beq_iff_eq]

/-- SNE with an immediate, in closed form (R109). -/
theorem execSneImm_eq (x : Index) (kk : Byte) (s : State) :
    execSneImm x kk s = .next { s with pc := if s.getV x ≠ kk then s.pc + 4 else s.pc + 2 } := by
  simp only [execSneImm, State.skipIf_eq, State.setPc, bne_iff_ne]

end Sys2Proof.Machine

namespace Sys2Proof.Proofs

open Sys2Proof.Machine

/-- Settles O3: the word is the packed one, and PC alone becomes the zero-extended address. -/
theorem jpSetsPc : Obligations.JpSetsPc := by
  intro nnn
  have hword : BitVec.ofNat 16 (0x1000 + nnn.toNat) = packNNN 0x1 nnn := ofNat_eq_packNNN 0x1 nnn
  refine ⟨?_, fun s => ⟨s.setPc (zext16 nnn), rfl, zext16_toNat nnn, rfl⟩⟩
  rw [hword, decodeWord_packNNN_jp]

/-- Settles O6: the words are the packed ones, and the closed forms of the two meanings say where PC goes. -/
theorem immediateSkips : Obligations.ImmediateSkips := by
  intro x kk
  have hse : BitVec.ofNat 16 (0x3000 + 0x100 * x.val + kk.toNat) = packXKK 0x3 x kk := ofNat_eq_packXKK 0x3 x kk
  have hsne : BitVec.ofNat 16 (0x4000 + 0x100 * x.val + kk.toNat) = packXKK 0x4 x kk := ofNat_eq_packXKK 0x4 x kk
  refine ⟨?_, ?_, fun s => ⟨execSeImm_eq x kk s, execSneImm_eq x kk s⟩⟩
  · rw [hse, decodeWord_packXKK_seImm]
  · rw [hsne, decodeWord_packXKK_sneImm]

end Sys2Proof.Proofs

/-!
PROOF. The immediate load and addition (R130, R131), the load of I (R141) and the write of DT (R201). The two immediates
end by writing one register and moving on, and that is `RegResult`.
-/
namespace Sys2Proof

/-- The word numbered by what its class and low byte fix, and then its register, is the packed word (R71, R78). -/
theorem ofNat_lowByte_first_eq_packXKK (c : Nibble) (x : Index) (kk : Byte) :
    BitVec.ofNat 16 (0x1000 * c.toNat + kk.toNat + 0x100 * x.val) = packXKK c x kk := by
  rw [Nat.add_right_comm, ofNat_eq_packXKK]

theorem decodeWord_packXKK_ldImm (x : Index) (kk : Byte) : decodeWord (packXKK 0x6 x kk) = some (.ldImm x kk) := by
  simp [decodeWord]

theorem decodeWord_packXKK_addImm (x : Index) (kk : Byte) : decodeWord (packXKK 0x7 x kk) = some (.addImm x kk) := by
  simp [decodeWord]

theorem decodeWord_packNNN_ldI (nnn : Addr12) : decodeWord (packNNN 0xA nnn) = some (.ldI nnn) := by
  simp [decodeWord]

theorem decodeWord_packXKK_ldDtVx (x : Index) : decodeWord (packXKK 0xF x 0x15) = some (.ldDtVx x) := by
  simp [decodeWord, decodeClassF]

end Sys2Proof

namespace Sys2Proof.Machine

/-- The narrowed exact sum is the sum of bytes (R143). -/
theorem sum8_eq_add (a b : Byte) : sum8 a b = a + b := rfl

/-- Writing one register and moving on changes that register and PC alone. -/
theorem regResult_setV_advance (s : State) (x : Index) (b : Byte) : RegResult s (s.setV x b).advance x b :=
  ⟨rfl, s.getV_setV_self x b, fun _ hj => s.getV_setV_ne b hj⟩

/-- ADD with an immediate writes the sum of bytes (R131). -/
theorem execAddImm_eq (x : Index) (kk : Byte) (s : State) :
    execAddImm x kk s = .next (s.setV x (s.getV x + kk)).advance := by
  rw [execAddImm, sum8_eq_add]

end Sys2Proof.Machine

namespace Sys2Proof.Proofs

open Sys2Proof.Machine

/-- Settles O8: the words are the packed ones, both meanings write V[x] and move on, and the sum of bytes is the sum
modulo 256. -/
theorem loadAndAddImmediate : Obligations.LoadAndAddImmediate := by
  intro x kk
  have hld : BitVec.ofNat 16 (0x6000 + 0x100 * x.val + kk.toNat) = packXKK 0x6 x kk := ofNat_eq_packXKK 0x6 x kk
  have hadd : BitVec.ofNat 16 (0x7000 + 0x100 * x.val + kk.toNat) = packXKK 0x7 x kk := ofNat_eq_packXKK 0x7 x kk
  refine ⟨?_, ?_, fun s => ⟨⟨_, rfl, regResult_setV_advance s x kk⟩,
    ⟨_, execAddImm_eq x kk s, regResult_setV_advance s x _, ?_⟩⟩⟩
  · rw [hld, decodeWord_packXKK_ldImm]
  · rw [hadd, decodeWord_packXKK_addImm]
  · rw [State.getV_advance, State.getV_setV_self, BitVec.toNat_add]

/-- Settles O18: the words are the packed ones, I alone becomes the zero-extended address, and DT alone V[x]. -/
theorem indexLoadAndDelayTimerWrite : Obligations.IndexLoadAndDelayTimerWrite := by
  refine ⟨fun nnn => ⟨?_, fun s => ⟨_, rfl, zext16_toNat nnn, rfl⟩⟩, fun x => ⟨?_, fun s => rfl⟩⟩
  · have hword : BitVec.ofNat 16 (0xA000 + nnn.toNat) = packNNN 0xA nnn := ofNat_eq_packNNN 0xA nnn
    rw [hword, decodeWord_packNNN_ldI]
  · have hword : BitVec.ofNat 16 (0xF015 + 0x100 * x.val) = packXKK 0xF x 0x15 :=
      ofNat_lowByte_first_eq_packXKK 0xF x 0x15
    rw [hword, decodeWord_packXKK_ldDtVx]

end Sys2Proof.Proofs

/-!
PROOF. Why a step halts (R240). An instruction's own check is written once as a function of the instruction and the
state, `execHaltCause`; `exec` halts with what it answers, `step` with that or with a failed fetch or decode, and each
reason is then read off it.
-/
namespace Sys2Proof.Machine

variable {s t : State}

/-- The reason an instruction's own check halts it with, if it does (R104, R106, R162, R212 to R214). -/
def execHaltCause (i : Instr) (s : State) : Option HaltReason :=
  match i with
  | .ret => if 0 < s.sp.val then none else some .stackUnderflow
  | .call _ => if s.sp.val < 16 then none else some .stackOverflow
  | .drw _ _ n => if addressesOk s.i.toNat n.toNat = true then none else some .addressOutOfRange
  | .ldBVx _ => if addressesOk s.i.toNat 3 = true then none else some .addressOutOfRange
  | .storeRegs x | .loadRegs x =>
    if addressesOk s.i.toNat (x.val + 1) = true then none else some .addressOutOfRange
  | _ => none

/-! What `exec` does to the status: it sets the halt of `execHaltCause`, and leaves the status alone without one. -/

theorem writeLogicResult_status (x : Index) (r : Byte) (s : State) : (writeLogicResult x r s).status = s.status := by
  rw [writeLogicResult_eq]

theorem State.skipIf_status (s : State) (taken : Bool) : (s.skipIf taken).status = s.status := by
  rw [State.skipIf_eq, State.setPc_status]

theorem execLdVxK_status (x : Index) (h : execLdVxK x s = .next t) : t.status = s.status := by
  rw [execLdVxK_eq] at h
  split at h <;> cases h <;> rfl

/-- An instruction that completes under a check and halts where it fails; its completion leaves the status alone. -/
theorem dite_haltWith_status {c : Prop} [Decidable c] {r : HaltReason} {p : c → State}
    (h : (if hc : c then .next (p hc) else haltWith r s) = .next t) (hp : ∀ hc, (p hc).status = s.status) :
    t.status = (if c then none else some r).elim s.status .halted := by
  split at h <;> rename_i hc <;> cases h
  · rw [if_pos hc]; exact hp hc
  · rw [if_neg hc]; rfl

/-- The same for a completion that takes no proof. -/
theorem ite_haltWith_status {c : Prop} [Decidable c] {r : HaltReason} {p : State}
    (h : (if c then .next p else haltWith r s) = .next t) (hp : p.status = s.status) :
    t.status = (if c then none else some r).elim s.status .halted :=
  dite_haltWith_status (p := fun _ => p) h (fun _ => hp)

theorem exec_status {i : Instr} (h : exec i s = .next t) :
    t.status = (execHaltCause i s).elim s.status .halted := by
  cases i with
  | ret => exact dite_haltWith_status ((execRet_eq s).symm.trans h) (fun _ => rfl)
  | call nnn => exact dite_haltWith_status ((execCall_eq nnn s).symm.trans h) (fun _ => rfl)
  | drw x y n => exact ite_haltWith_status ((execDrw_eq x y n s).symm.trans h) rfl
  | ldBVx x => exact ite_haltWith_status ((execLdBVx_eq x s).symm.trans h) rfl
  | storeRegs x => exact ite_haltWith_status ((execStoreRegs_eq x s).symm.trans h) rfl
  | loadRegs x => exact ite_haltWith_status ((execLoadRegs_eq x s).symm.trans h) rfl
  | ldVxK x => exact execLdVxK_status x h
  | seImm | sneImm | seReg | sneReg | skp | sknp =>
    cases h
    exact State.skipIf_status s _
  | orReg | andReg | xorReg =>
    cases h
    exact writeLogicResult_status _ _ s
  | _ => cases h; rfl

theorem exec_halted_iff {i : Instr} {r : HaltReason} (hs : s.status = .running) (h : exec i s = .next t) :
    t.status = .halted r ↔ execHaltCause i s = some r := by
  rw [exec_status h, hs]
  cases execHaltCause i s <;> simp

/-! Each reason's cause among the instructions, in the spec's arithmetic. -/

/-- The address check fails exactly where there is a byte and the last one lies above 0xFFF (R53; D16, D17). -/
theorem addressesOk_eq_false_iff {base len : Nat} :
    addressesOk base len = false ↔ len ≠ 0 ∧ 0xFFF < base + len - 1 := by
  rw [← Bool.not_eq_true, addressesOk_iff]
  omega

theorem execHaltCause_ne_unsupported (i : Instr) (s : State) (raw : Word) :
    execHaltCause i s ≠ some (.unsupportedInstruction raw) := by
  cases i <;> simp [execHaltCause]

theorem execHaltCause_eq_stackOverflow {i : Instr} :
    execHaltCause i s = some .stackOverflow ↔ (∃ nnn, i = .call nnn) ∧ s.sp.val = 16 := by
  have hsp : 16 ≤ s.sp.val ↔ s.sp.val = 16 := by omega
  cases i with
  | call nnn => simpa [execHaltCause] using hsp
  | _ => simp [execHaltCause]

theorem execHaltCause_eq_stackUnderflow {i : Instr} :
    execHaltCause i s = some .stackUnderflow ↔ i = .ret ∧ s.sp.val = 0 := by
  cases i <;> simp [execHaltCause]

theorem execHaltCause_eq_addressOutOfRange {i : Instr} :
    execHaltCause i s = some .addressOutOfRange ↔
      (∃ x y n, i = .drw x y n ∧ n ≠ 0 ∧ 0xFFF < s.i.toNat + n.toNat - 1) ∨
      (∃ x, i = .ldBVx x ∧ 0xFFF < s.i.toNat + 2) ∨
      (∃ x, (i = .storeRegs x ∨ i = .loadRegs x) ∧ 0xFFF < s.i.toNat + x.val) := by
  cases i with
  | drw x y n =>
    have hn : n = 0#4 ↔ n.toNat = 0 := BitVec.toNat_eq
    simp [execHaltCause, addressesOk_eq_false_iff, hn]
  | ldBVx x | storeRegs x | loadRegs x => simp [execHaltCause, addressesOk_eq_false_iff]
  | _ => simp [execHaltCause]

/-! What `step` does. -/

/-- A running engine halts at a failed fetch check, at an unsupported word, or by the fetched instruction's own check,
and these exclude each other (R101, R245). -/
theorem step_halted_iff {r : HaltReason} (hs : s.status = .running) (h : step s = .next t) :
    t.status = .halted r ↔
      (s.fetchWord = none ∧ r = .addressOutOfRange) ∨
      (∃ op : Word, s.fetchWord = some op ∧ decodeWord op = none ∧ r = .unsupportedInstruction op) ∨
      (∃ i : Instr, s.fetchInstr = some i ∧ execHaltCause i s = some r) := by
  rcases step_cases h with ⟨r', hr', -⟩ | ⟨-, ⟨hw, rfl⟩ | ⟨op, hw, hd, rfl⟩ | ⟨i, hi, he⟩⟩
  · simp [hr'] at hs
  · simp [State.fetchInstr, hw, eq_comm]
  · simp [State.fetchInstr, hw, hd, eq_comm]
  · obtain ⟨op, hw, hd⟩ := State.fetchInstr_eq_some.1 hi
    simp [exec_halted_iff hs he, State.fetchInstr, hw, hd]

/-- A step that ends halted returns that halt (R103). -/
theorem stepOutput_of_halted {r : HaltReason} (h : step s = .next t) (ht : t.status = .halted r) :
    stepOutput s = some (.halted r) := by
  simp only [stepOutput, h, outputAfter, ht]

end Sys2Proof.Machine

namespace Sys2Proof.Proofs

open Sys2Proof.Machine

/-- Settles O33: the three ways a running step halts, read for each reason. -/
theorem haltCauses : Obligations.HaltCauses := by
  intro s t hs h
  refine ⟨fun raw => ?_, ?_, ?_, ?_, fun r => stepOutput_of_halted h⟩ <;> rw [step_halted_iff hs h]
  · simp [execHaltCause_ne_unsupported]
  · simp [execHaltCause_eq_stackOverflow]
  · simp [execHaltCause_eq_stackUnderflow]
  · cases s.fetchInstr <;> simp [State.fetchWord_eq_none, execHaltCause_eq_addressOutOfRange]

end Sys2Proof.Proofs

/-!
PROOF. The decoder and the encoder against each other (R70 to R74, R80, R83). A word of the opcode map is the packing of
its fields, and the fields of a packed word are what was packed; each direction follows arm by arm.
-/
namespace Sys2Proof

/-! A word is the packing of its own fields (R71). -/

theorem packNNN_fields (op : Word) : packNNN (fieldC op) (fieldNNN op) = op := by
  apply BitVec.eq_of_toNat_eq
  rw [packNNN_toNat, fieldC_toNat, fieldNNN_toNat]
  omega

theorem packXKK_fields (op : Word) : packXKK (fieldC op) (fieldX op) (fieldKK op) = op := by
  apply BitVec.eq_of_toNat_eq
  rw [packXKK_toNat, fieldC_toNat, fieldX_val, fieldKK_toNat]
  omega

theorem packXYN_fields (op : Word) : packXYN (fieldC op) (fieldX op) (fieldY op) (fieldN op) = op := by
  apply BitVec.eq_of_toNat_eq
  rw [packXYN_toNat, fieldC_toNat, fieldX_val, fieldY_val, fieldN_toNat]
  omega

/-- The two readings of Bnnn's overlapping fields agree (R107). -/
theorem fieldX_val_eq_fieldNNN_div (op : Word) : (fieldX op).val = (fieldNNN op).toNat / 256 := by
  rw [fieldX_val, fieldNNN_toNat]
  omega

/-! From the instruction to its word and back. -/

/-- The decoder undoes the encoder on well-formed instructions (R74, R107). -/
theorem decodeWord_encode {i : Instr} (hi : i.wf = true) : decodeWord (encode i) = some i := by
  cases i with
  | cls | ret => rfl
  | jpV0 x nnn =>
    have hx : fieldX (packNNN 0xB nnn) = x := Fin.ext ((fieldX_packNNN_val _ _).trans (beq_iff_eq.1 hi).symm)
    calc decodeWord (packNNN 0xB nnn)
        = some (.jpV0 (fieldX (packNNN 0xB nnn)) nnn) := by simp [decodeWord]
      _ = some (.jpV0 x nnn) := by rw [hx]
  | jp | call | ldI | seImm | sneImm | ldImm | addImm | rnd | drw => simp [decodeWord, encode]
  | seReg | sneReg => simp [decodeWord, encode, decodeLowNibbleZero]
  | ldReg | orReg | andReg | xorReg | addReg | subReg | shr | subnReg | shl => simp [decodeWord, encode, decodeClass8]
  | skp | sknp => simp [decodeWord, encode, decodeClassE]
  | ldVxDt | ldVxK | ldDtVx | ldStVx | addIVx | ldFVx | ldBVx | storeRegs | loadRegs =>
    simp [decodeWord, encode, decodeClassF]

/-- The same for a word given by its number. -/
theorem decodeWord_ofNat {i : Instr} {k : Nat} (hi : i.wf = true) (hk : k = (encode i).toNat) :
    decodeWord (BitVec.ofNat 16 k) = some i := by
  rw [hk, BitVec.ofNat_toNat, BitVec.setWidth_eq, decodeWord_encode hi]

/-! From a word to its instruction and back. Each lemma takes the class of the word as known. -/

section
variable {op : Word} {i : Instr}

theorem encode_decodeClass0 (hc : fieldC op = 0x0) (h : decodeClass0 op = some i) : encode i = op ∧ i.wf = true := by
  unfold decodeClass0 at h
  split at h <;> cases h
  all_goals
    rename_i hn
    rw [← packNNN_fields op, hc, hn]
    exact ⟨rfl, rfl⟩

theorem encode_decodeLowNibbleZero {j : Instr} (hn : fieldN op = 0x0 → encode j = op) (hj : j.wf = true)
    (h : decodeLowNibbleZero op j = some i) : encode i = op ∧ i.wf = true := by
  unfold decodeLowNibbleZero at h
  split at h <;> cases h
  exact ⟨hn ‹_›, hj⟩

theorem encode_decodeClass8 (hc : fieldC op = 0x8) (h : decodeClass8 op = some i) : encode i = op ∧ i.wf = true := by
  unfold decodeClass8 at h
  split at h <;> cases h
  all_goals
    rename_i hn
    refine ⟨?_, rfl⟩
    conv_rhs => rw [← packXYN_fields op, hc, hn]
    rfl

theorem encode_decodeClassE (hc : fieldC op = 0xE) (h : decodeClassE op = some i) : encode i = op ∧ i.wf = true := by
  unfold decodeClassE at h
  split at h <;> cases h
  all_goals
    rename_i hk
    refine ⟨?_, rfl⟩
    conv_rhs => rw [← packXKK_fields op, hc, hk]
    rfl

theorem encode_decodeClassF (hc : fieldC op = 0xF) (h : decodeClassF op = some i) : encode i = op ∧ i.wf = true := by
  unfold decodeClassF at h
  split at h <;> cases h
  all_goals
    rename_i hk
    refine ⟨?_, rfl⟩
    conv_rhs => rw [← packXKK_fields op, hc, hk]
    rfl

/-- The encoder undoes the decoder, and only well-formed instructions are decoded (R80, R83). -/
theorem encode_decodeWord (h : decodeWord op = some i) : encode i = op ∧ i.wf = true := by
  have hnnn := packNNN_fields op
  have hxkk := packXKK_fields op
  have hxyn := packXYN_fields op
  unfold decodeWord at h
  split at h
  case h_17 => cases h
  all_goals rename_i hc; simp only [hc] at hnnn hxkk hxyn
  case h_1 => exact encode_decodeClass0 hc h
  case h_6 | h_10 => exact encode_decodeLowNibbleZero (fun hn => by rw [hn] at hxyn; exact hxyn) rfl h
  case h_9 => exact encode_decodeClass8 hc h
  case h_15 => exact encode_decodeClassE hc h
  case h_16 => exact encode_decodeClassF hc h
  all_goals cases h
  case h_12 => exact ⟨hnnn, beq_iff_eq.2 (fieldX_val_eq_fieldNNN_div op)⟩
  case h_2 | h_3 | h_11 => exact ⟨hnnn, rfl⟩
  case h_14 => exact ⟨hxyn, rfl⟩
  all_goals exact ⟨hxkk, rfl⟩

end

end Sys2Proof

namespace Sys2Proof.Proofs

/-- Settles O25: the two bytes make the instruction's word again, and the decoder undoes the encoder on it. -/
theorem decodeOfEncode : Obligations.DecodeOfEncode := by
  intro i rest hi
  calc decode (encodeBytes i ++ rest)
      = decode (highByte (encode i) :: lowByte (encode i) :: rest) := rfl
    _ = .ok (i, rest) := by rw [decode_bytes, decodeWord_encode hi]

/-- Settles O26: arm by arm of the decoder. -/
theorem encodeOfDecode : Obligations.EncodeOfDecode := fun _ _ => encode_decodeWord

end Sys2Proof.Proofs

/-!
PROOF. The decoder against the opcode map (R74, R79, R80). The rows exclude each other, an instruction's word belongs to
its own row, and a word of any row decodes; so the row of a word is that of the instruction it decodes to. The
unsupported words are then counted class by class: within a class the decoder looks at the last digits only.
-/
namespace Sys2Proof

/-! Rows. -/

/-- The encoder's word belongs to its instruction's row, for every instruction. -/
theorem encode_matches_opcodeRow (i : Instr) : (opcodeRow i).matchesWord (encode i) = true := by
  cases i with
  | cls => exact Laws.EncodesItsRow.cls
  | ret => exact Laws.EncodesItsRow.ret
  | jp | call | ldI | jpV0 => exact Laws.EncodesItsRow.class_row (fieldC_packNNN _ _)
  | seImm | sneImm | ldImm | addImm | rnd => exact Laws.EncodesItsRow.class_row (fieldC_packXKK _ _ _)
  | drw => exact Laws.EncodesItsRow.class_row (fieldC_packXYN _ _ _ _)
  | seReg | sneReg | ldReg | orReg | andReg | xorReg | addReg | subReg | shr | subnReg | shl =>
    exact Laws.EncodesItsRow.variant_row (fieldC_packXYN _ _ _ _) (fieldN_packXYN _ _ _ _)
  | skp | sknp | ldVxDt | ldVxK | ldDtVx | ldStVx | addIVx | ldFVx | ldBVx | storeRegs | loadRegs =>
    exact Laws.EncodesItsRow.lowByte_row (fieldC_packXKK _ _ _) (fieldKK_packXKK _ _ _)

theorem opcodeRow_mem_opcodeTable (i : Instr) : opcodeRow i ∈ opcodeTable := by
  cases i <;> simp [opcodeRow, opcodeTable]

theorem opcodeTable_rows_disjoint : ∀ r ∈ opcodeTable, ∀ q ∈ opcodeTable, r.overlaps q = true → r = q := by
  decide

/-- A word of two rows agrees with both where both fix a bit. -/
theorem OpcodeRow.overlaps_of_matchesWord {r q : OpcodeRow} {op : Word} (hr : r.matchesWord op = true)
    (hq : q.matchesWord op = true) : r.overlaps q = true := by
  rw [OpcodeRow.matchesWord, beq_iff_eq] at hr hq
  rw [OpcodeRow.overlaps, beq_iff_eq, ← hr, ← hq, BitVec.and_assoc, BitVec.and_assoc, BitVec.and_comm r.mask]

variable {op : Word}

/-! Two words of one row agree in the fields that its mask fixes. -/

theorem fieldC_eq_of_matchesWord {r : OpcodeRow} {w : Word} (hr : r.mask = 0xF000) (h : r.matchesWord op = true)
    (hw : r.matchesWord w = true) : fieldC op = fieldC w := by
  rw [OpcodeRow.matchesWord, beq_iff_eq, hr, mask_class] at h hw
  simpa using congrArg fieldC (h.trans hw.symm)

theorem fieldN_eq_of_matchesWord {r : OpcodeRow} {w : Word} (hr : r.mask = 0xF00F) (h : r.matchesWord op = true)
    (hw : r.matchesWord w = true) : fieldC op = fieldC w ∧ fieldN op = fieldN w := by
  rw [OpcodeRow.matchesWord, beq_iff_eq, hr, mask_variant] at h hw
  exact ⟨by simpa using congrArg fieldC (h.trans hw.symm), by simpa using congrArg fieldN (h.trans hw.symm)⟩

theorem fieldKK_eq_of_matchesWord {r : OpcodeRow} {w : Word} (hr : r.mask = 0xF0FF) (h : r.matchesWord op = true)
    (hw : r.matchesWord w = true) : fieldC op = fieldC w ∧ fieldKK op = fieldKK w := by
  rw [OpcodeRow.matchesWord, beq_iff_eq, hr, mask_lowByte] at h hw
  exact ⟨by simpa using congrArg fieldC (h.trans hw.symm), by simpa using congrArg fieldKK (h.trans hw.symm)⟩

theorem eq_of_whole_row {w : Word} (h : OpcodeRow.matchesWord ⟨w, 0xFFFF⟩ op = true) : op = w := by
  rw [OpcodeRow.matchesWord, beq_iff_eq] at h
  exact BitVec.and_allOnes.symm.trans h

/-- A word of an instruction's row is supported (R74): the fields that the decoder selects by are those of the
instruction's own word. -/
theorem decodeWord_ne_none_of_matchesWord {i : Instr} (h : (opcodeRow i).matchesWord op = true) :
    decodeWord op ≠ none := by
  have hw := encode_matches_opcodeRow i
  cases i with
  | cls | ret => rw [eq_of_whole_row h]; decide
  | jp | call | seImm | sneImm | ldImm | addImm | ldI | jpV0 | rnd | drw =>
    have hc := fieldC_eq_of_matchesWord rfl h hw
    simp [decodeWord, hc, encode]
  | seReg | sneReg =>
    obtain ⟨hc, hn⟩ := fieldN_eq_of_matchesWord rfl h hw
    simp [decodeWord, hc, decodeLowNibbleZero, hn, encode]
  | ldReg | orReg | andReg | xorReg | addReg | subReg | shr | subnReg | shl =>
    obtain ⟨hc, hn⟩ := fieldN_eq_of_matchesWord rfl h hw
    simp [decodeWord, hc, decodeClass8, hn, encode]
  | skp | sknp =>
    obtain ⟨hc, hk⟩ := fieldKK_eq_of_matchesWord rfl h hw
    simp [decodeWord, hc, decodeClassE, hk, encode]
  | ldVxDt | ldVxK | ldDtVx | ldStVx | addIVx | ldFVx | ldBVx | storeRegs | loadRegs =>
    obtain ⟨hc, hk⟩ := fieldKK_eq_of_matchesWord rfl h hw
    simp [decodeWord, hc, decodeClassF, hk, encode]

/-- Every row of the table is an instruction's: its pattern decodes to one. -/
theorem exists_opcodeRow_eq : ∀ r ∈ opcodeTable, ∃ i, opcodeRow i = r := by
  have hrows : ∀ r ∈ opcodeTable, (decodeWord r.pattern).map opcodeRow = some r := by decide
  intro r hr
  obtain ⟨i, -, hi⟩ := Option.map_eq_some_iff.1 (hrows r hr)
  exact ⟨i, hi⟩

/-- The row of a decoded word is its instruction's, and it is the only one (R80). -/
theorem matchesWord_iff_of_decodeWord {i : Instr} {r : OpcodeRow} (h : decodeWord op = some i) (hr : r ∈ opcodeTable) :
    r.matchesWord op = true ↔ r = opcodeRow i := by
  have hown : (opcodeRow i).matchesWord op = true := by
    rw [← (encode_decodeWord h).1]
    exact encode_matches_opcodeRow i
  constructor
  · intro hm
    exact opcodeTable_rows_disjoint r hr _ (opcodeRow_mem_opcodeTable i) (OpcodeRow.overlaps_of_matchesWord hm hown)
  · rintro rfl
    exact hown

/-! Which words are unsupported, class by class (R79). -/

theorem decodeClass0_eq_none : decodeClass0 op = none ↔ fieldNNN op ≠ 0x0E0 ∧ fieldNNN op ≠ 0x0EE := by
  unfold decodeClass0
  split <;> simp_all

theorem decodeLowNibbleZero_eq_none {j : Instr} : decodeLowNibbleZero op j = none ↔ fieldN op ≠ 0x0 := by
  unfold decodeLowNibbleZero
  split <;> simp_all

theorem decodeClass8_eq_none :
    decodeClass8 op = none ↔ (fieldN op).toNat ∈ [0x8, 0x9, 0xA, 0xB, 0xC, 0xD, 0xF] := by
  have hall : ∀ n : Nibble, n ∉ [0x0#4, 0x1#4, 0x2#4, 0x3#4, 0x4#4, 0x5#4, 0x6#4, 0x7#4, 0xE#4] ↔
      n.toNat ∈ [0x8, 0x9, 0xA, 0xB, 0xC, 0xD, 0xF] := by decide
  rw [← hall]
  unfold decodeClass8
  split <;> simp_all

theorem decodeClassE_eq_none : decodeClassE op = none ↔ (fieldKK op).toNat ∉ [0x9E, 0xA1] := by
  unfold decodeClassE
  split <;> simp_all [BitVec.toNat_eq]

theorem decodeClassF_eq_none :
    decodeClassF op = none ↔ (fieldKK op).toNat ∉ [0x07, 0x0A, 0x15, 0x18, 0x1E, 0x29, 0x33, 0x55, 0x65] := by
  unfold decodeClassF
  split <;> simp_all [BitVec.toNat_eq]

/-- The unsupported words by their class and the field that the class selects by. -/
theorem decodeWord_eq_none : decodeWord op = none ↔
    (fieldC op = 0x0 ∧ decodeClass0 op = none) ∨ (fieldC op = 0x5 ∧ fieldN op ≠ 0x0) ∨
    (fieldC op = 0x8 ∧ decodeClass8 op = none) ∨ (fieldC op = 0x9 ∧ fieldN op ≠ 0x0) ∨
    (fieldC op = 0xE ∧ decodeClassE op = none) ∨ (fieldC op = 0xF ∧ decodeClassF op = none) := by
  unfold decodeWord
  split
  case h_17 =>
    have hall : ∀ c : Nibble, c ∈ [0x0#4, 0x1#4, 0x2#4, 0x3#4, 0x4#4, 0x5#4, 0x6#4, 0x7#4, 0x8#4, 0x9#4, 0xA#4, 0xB#4,
      0xC#4, 0xD#4, 0xE#4, 0xF#4] := by decide
    have := hall (fieldC op)
    simp_all
  all_goals rename_i hc; simp [hc, decodeLowNibbleZero_eq_none]

/-- The unsupported words by their number (R79). -/
theorem decodeWord_eq_none_iff_listed : decodeWord op = none ↔
    (op.toNat / 0x1000 = 0x0 ∧ op ≠ 0x00E0 ∧ op ≠ 0x00EE) ∨
    (op.toNat / 0x1000 = 0x5 ∧ op.toNat % 0x10 ≠ 0) ∨
    (op.toNat / 0x1000 = 0x8 ∧ op.toNat % 0x10 ∈ [0x8, 0x9, 0xA, 0xB, 0xC, 0xD, 0xF]) ∨
    (op.toNat / 0x1000 = 0x9 ∧ op.toNat % 0x10 ≠ 0) ∨
    (op.toNat / 0x1000 = 0xE ∧ op.toNat % 0x100 ∉ [0x9E, 0xA1]) ∨
    (op.toNat / 0x1000 = 0xF ∧ op.toNat % 0x100 ∉ [0x07, 0x0A, 0x15, 0x18, 0x1E, 0x29, 0x33, 0x55, 0x65]) := by
  have hclass : ∀ c : Nibble, fieldC op = c ↔ op.toNat / 0x1000 = c.toNat := fun c => by
    rw [← BitVec.toNat_inj, fieldC_toNat]
    omega
  have hlow : fieldN op ≠ 0x0 ↔ op.toNat % 0x10 ≠ 0 := by
    rw [ne_eq, ← BitVec.toNat_inj, fieldN_toNat]
    rfl
  have hzero : fieldC op = 0x0 ∧ decodeClass0 op = none ↔ op.toNat / 0x1000 = 0x0 ∧ op ≠ 0x00E0 ∧ op ≠ 0x00EE := by
    have hnnn : ∀ a : Addr12, fieldNNN op = a ↔ op.toNat % 0x1000 = a.toNat := fun a => by
      rw [← BitVec.toNat_inj, fieldNNN_toNat]
    have hop : ∀ w : Word, op = w ↔ op.toNat = w.toNat := fun w => BitVec.toNat_inj.symm
    rw [decodeClass0_eq_none, ne_eq, ne_eq, ne_eq, ne_eq, hclass, hnnn, hnnn, hop, hop]
    change op.toNat / 0x1000 = 0x0 ∧ ¬ op.toNat % 0x1000 = 0x0E0 ∧ ¬ op.toNat % 0x1000 = 0x0EE ↔
      op.toNat / 0x1000 = 0x0 ∧ ¬ op.toNat = 0x00E0 ∧ ¬ op.toNat = 0x00EE
    omega
  rw [decodeWord_eq_none, hzero, decodeClass8_eq_none, decodeClassE_eq_none, decodeClassF_eq_none, hlow, fieldN_toNat,
    fieldKK_toNat]
  simp only [hclass]
  rfl

/-! How many there are (R79): the count over a class is a count over the last digits. -/

/-- A predicate on a residue holds equally often in each of k periods. -/
theorem countP_range_mod (p : Nat → Bool) (m k : Nat) :
    (List.range (m * k)).countP (fun n => p (n % m)) = k * (List.range m).countP p := by
  induction k with
  | zero => simp
  | succ k ih =>
    have hperiod : (List.range m).countP (fun n => p ((m * k + n) % m)) = (List.range m).countP p :=
      List.countP_congr fun n hn => by
        rw [Nat.mul_add_mod, Nat.mod_eq_of_lt (List.mem_range.1 hn)]
    rw [Nat.mul_succ, List.range_add, List.countP_append, ih, List.countP_map]
    simp only [Function.comp_def, hperiod, Nat.succ_mul]

/-- Of the numbers below m, all but the listed ones are outside the list. -/
theorem countP_range_notMem {m : Nat} {l : List Nat} (hl : l.Nodup) (hlt : ∀ a ∈ l, a < m) :
    (List.range m).countP (fun n => decide (n ∉ l)) = m - l.length := by
  have hperm : ((List.range m).filter (fun n => decide (n ∈ l))).Perm l := by
    rw [List.perm_ext_iff_of_nodup (List.nodup_range.filter _) hl]
    intro a
    simpa using hlt a
  have hsum := List.length_eq_countP_add_countP (fun n => decide (n ∈ l)) (l := List.range m)
  rw [List.countP_eq_length_filter, hperm.length_eq, List.length_range] at hsum
  simp only [decide_eq_true_eq] at hsum
  omega

/-- A class whose decoder looks at the number modulo m and supports the listed residues: the rest of each period is
unsupported, and there are 0x1000 / m periods. -/
theorem unsupportedInClass_of_mod {c : Nat} (m k : Nat) (l : List Nat) (hc : c < 16) (hmk : m * k = 0x1000)
    (hl : l.Nodup) (hlt : ∀ a ∈ l, a < m)
    (hp : ∀ op : Word, op.toNat / 0x1000 = c → (decodeWord op = none ↔ op.toNat % m ∉ l)) :
    unsupportedInClass c = k * (m - l.length) := by
  rw [unsupportedInClass, ← countP_range_notMem hl hlt, ← countP_range_mod, hmk]
  refine List.countP_congr fun n hn => ?_
  have hn := List.mem_range.1 hn
  have hop : (BitVec.ofNat 16 (0x1000 * c + n)).toNat = 0x1000 * c + n := by
    rw [BitVec.toNat_ofNat]
    omega
  have hmod : (0x1000 * c + n) % m = n % m := by
    rw [← hmk, Nat.mul_assoc, Nat.mul_add_mod]
  rw [Option.isNone_iff_eq_none, hp _ (by omega), hop, hmod, decide_eq_true_eq]

theorem unsupportedInClass_0 : unsupportedInClass 0x0 = 4094 := by
  refine unsupportedInClass_of_mod 0x1000 1 [0xE0, 0xEE] (by decide) rfl (by decide) (by decide) fun op hop => ?_
  have heq : ∀ w : Word, op = w ↔ op.toNat = w.toNat := fun w => BitVec.toNat_inj.symm
  have hmod : op.toNat % 0x1000 = op.toNat := by omega
  simp [decodeWord_eq_none_iff_listed, hop, heq, hmod]

theorem unsupportedInClass_lowNibbleZero {c : Nat} (hc : c = 0x5 ∨ c = 0x9) : unsupportedInClass c = 3840 := by
  refine unsupportedInClass_of_mod 0x10 0x100 [0x0] (by omega) rfl (by decide) (by decide) fun op hop => ?_
  rcases hc with rfl | rfl <;> simp [decodeWord_eq_none_iff_listed, hop]

theorem unsupportedInClass_8 : unsupportedInClass 0x8 = 1792 := by
  refine unsupportedInClass_of_mod 0x10 0x100 [0x0, 0x1, 0x2, 0x3, 0x4, 0x5, 0x6, 0x7, 0xE] (by decide) rfl (by decide)
    (by decide) fun op hop => ?_
  simp [decodeWord_eq_none_iff_listed, hop]
  omega

theorem unsupportedInClass_E : unsupportedInClass 0xE = 4064 := by
  refine unsupportedInClass_of_mod 0x100 0x10 [0x9E, 0xA1] (by decide) rfl (by decide) (by decide) fun op hop => ?_
  simp [decodeWord_eq_none_iff_listed, hop]

theorem unsupportedInClass_F : unsupportedInClass 0xF = 3952 := by
  refine unsupportedInClass_of_mod 0x100 0x10 [0x07, 0x0A, 0x15, 0x18, 0x1E, 0x29, 0x33, 0x55, 0x65] (by decide) rfl
    (by decide) (by decide) fun op hop => ?_
  simp [decodeWord_eq_none_iff_listed, hop]

/-- A class without unsupported words. -/
theorem unsupportedInClass_eq_zero {c : Nat} (hc : c < 16) (hsel : c ∉ [0x0, 0x5, 0x8, 0x9, 0xE, 0xF]) :
    unsupportedInClass c = 0 := by
  refine unsupportedInClass_of_mod 1 0x1000 [0x0] hc rfl (by decide) (by decide) fun op hop => ?_
  simp only [List.mem_cons, not_or] at hsel
  simp [decodeWord_eq_none_iff_listed, hop, hsel, Nat.mod_one]

/-- The counts of R79, class by class. -/
theorem map_unsupportedInClass : (List.range 16).map unsupportedInClass =
    [4094, 0, 0, 0, 0, 3840, 0, 0, 1792, 3840, 0, 0, 0, 0, 4064, 3952] := by
  have hzero : ∀ c ∈ [1, 2, 3, 4, 6, 7, 10, 11, 12, 13], unsupportedInClass c = 0 := fun c hc =>
    unsupportedInClass_eq_zero (by revert c; decide) (by revert c; decide)
  simp only [List.forall_mem_cons] at hzero
  simp [List.range_succ, hzero, unsupportedInClass_0, unsupportedInClass_lowNibbleZero, unsupportedInClass_8,
    unsupportedInClass_E, unsupportedInClass_F]

end Sys2Proof

namespace Sys2Proof.Proofs

open Sys2Proof.Machine

/-- Settles O27: a word of any row decodes, and the row of its instruction is its only one. -/
theorem decoderFollowsOpcodeMap : Obligations.DecoderFollowsOpcodeMap := by
  intro op
  refine ⟨⟨fun hnone r hr => ?_, fun hno => ?_⟩, fun i hi =>
    ⟨opcodeRow_mem_opcodeTable i, fun r => matchesWord_iff_of_decodeWord hi⟩⟩
  · obtain ⟨i, rfl⟩ := exists_opcodeRow_eq r hr
    exact Bool.eq_false_iff.2 fun hm => decodeWord_ne_none_of_matchesWord hm hnone
  · by_contra hsome
    obtain ⟨i, hi⟩ := Option.ne_none_iff_exists'.1 hsome
    have hrow := opcodeRow_mem_opcodeTable i
    have hmatch := (matchesWord_iff_of_decodeWord hi hrow).2 rfl
    exact absurd (hno _ hrow) (by rw [hmatch]; decide)

/-- Settles O28: the words by the field their class selects by, the counts by period, and the step's halt. -/
theorem unsupportedWordsHalt : Obligations.UnsupportedWordsHalt := by
  refine ⟨fun op => decodeWord_eq_none_iff_listed, map_unsupportedInClass, ?_, fun s op hs hw hd => ?_⟩
  · rw [map_unsupportedInClass]
    rfl
  · simp only [step, hs, hw, hd]
    rfl

end Sys2Proof.Proofs

/-!
PROOF. Every instruction as its check and its completion. `execHaltCause` is the check; `completed` is the whole next
state of an instruction whose check passes, with every branch taken inside a field, so that a rule over all instructions
reads one field of it, case by case.
-/
namespace Sys2Proof.Machine

/-- The state a result answers, or the given one where it answers none. -/
def nextOr (s : State) : Result → State
  | .next t => t
  | .fault _ => s
  | .refused _ => s

/-- The register file after a logic instruction (R133 to R135, R144). -/
def logicV (x : Index) (r : Byte) (s : State) : Vector Byte 16 :=
  if s.config.quirkLogicVfReset then (s.v.set x r).set vf 0x00 else s.v.set x r

/-- V0 .. V[x] from the given bytes, the others from the given registers. Irreducible, so that comparing two states
never unfolds it. -/
@[irreducible] def loadInto (x : Index) (byte : Nat → Byte) (v : Vector Byte 16) : Vector Byte 16 :=
  Vector.ofFn fun j : Index => if j ≤ x then byte j.val else v[j]

/-- The register file after Fx65: V0 .. V[x] from memory, the others as before (R214). -/
def loadedV (x : Index) (s : State) : Vector Byte 16 := loadInto x (fun j => s.byteAt (s.i.toNat + j)) s.v

/-- I after Fx55 and Fx65 (R213, R214). -/
def incrementedI (x : Index) (s : State) : Word :=
  if s.config.quirkMemIncrementI then trunc16 (s.i.toNat + x.val + 1) else s.i

/-- PC after a skip instruction (R112). -/
def skippedPc (taken : Bool) (s : State) : Word := if taken then s.pc + 4 else s.pc + 2

/-- The display and the collision after Dxyn (R162, R165). -/
def drawn (x y : Index) (n : Nibble) (s : State) : Blit :=
  blitSprite (s.getV x).toNat (s.getV y).toNat (s.bytesAt s.i.toNat n.toNat) s.fb

/-- The next state of an instruction whose own check passes. The instructions that neither check nor branch are
straight lines in the model already. -/
def completed (i : Instr) (s : State) : State :=
  match i with
  | .ret => { s with sp := ⟨s.sp.val - 1, by omega⟩, pc := s.stack[s.sp.val - 1] }
  | .call nnn => { s with
      stack := s.stack.setIfInBounds s.sp.val s.nextPc
      sp := ⟨min (s.sp.val + 1) 16, by omega⟩
      pc := zext16 nnn }
  | .seImm x kk => s.setPc (skippedPc (s.getV x == kk) s)
  | .sneImm x kk => s.setPc (skippedPc (s.getV x != kk) s)
  | .seReg x y => s.setPc (skippedPc (s.getV x == s.getV y) s)
  | .sneReg x y => s.setPc (skippedPc (s.getV x != s.getV y) s)
  | .skp x => s.setPc (skippedPc (s.pressed (s.getV x)) s)
  | .sknp x => s.setPc (skippedPc (!s.pressed (s.getV x)) s)
  | .orReg x y => { s with v := logicV x (s.getV x ||| s.getV y) s, pc := s.pc + 2 }
  | .andReg x y => { s with v := logicV x (s.getV x &&& s.getV y) s, pc := s.pc + 2 }
  | .xorReg x y => { s with v := logicV x (s.getV x ^^^ s.getV y) s, pc := s.pc + 2 }
  | .drw x y n => ((s.setFb (drawn x y n s).1).setV vf (flagByte (drawn x y n s).2)).advance
  | .ldVxK x => { s with
      v := s.lowestPressed.elim s.v fun k => s.v.set x (trunc8 k.val)
      awaiting := s.lowestPressed.isNone
      pc := if s.lowestPressed.isNone then s.pc else s.pc + 2 }
  | .ldBVx x => (s.setMem (Memory.writeAll s.config s.i.toNat (bcdDigits (s.getV x)) s.mem)).advance
  | .storeRegs x => { s with
      mem := Memory.writeAll s.config s.i.toNat (registersTo x s) s.mem
      i := incrementedI x s
      pc := s.pc + 2 }
  | .loadRegs x => { s with v := loadedV x s, i := incrementedI x s, pc := s.pc + 2 }
  | i => nextOr s (exec i s)

variable {i : Instr} {s t : State}

theorem skipIf_eq_skippedPc (taken : Bool) : s.skipIf taken = s.setPc (skippedPc taken s) := State.skipIf_eq s taken

theorem getV_loadedV {x j : Index} :
    (loadedV x s)[j] = if j ≤ x then s.byteAt (s.i.toNat + j.val) else s.getV j := by
  simp [loadedV, loadInto, State.getV]

/-- The loaded block, register by register. -/
theorem loadRegisters_v_eq_loadedV (x : Index) (s : State) :
    (loadRegisters 0 (s.bytesAt s.i.toNat (x.val + 1)) s).v = loadedV x s := by
  apply Vector.ext
  intro j hj
  refine (getV_loadRegisters 0 (s.bytesAt s.i.toNat (x.val + 1)) s ⟨j, hj⟩).trans
    (Eq.trans ?_ (getV_loadedV (j := ⟨j, hj⟩)).symm)
  rw [if_pos (Nat.zero_le _)]
  by_cases hx : j ≤ x.val
  · have hlen : j < (s.bytesAt s.i.toNat (x.val + 1)).length := by rw [State.bytesAt_length]; omega
    simp [State.bytesAt_getElem, Fin.le_def, hx]
  · have hlen : (s.bytesAt s.i.toNat (x.val + 1)).length ≤ j := by rw [State.bytesAt_length]; omega
    simp [Fin.le_def, hx]

/-- Every instruction halts with its cause, or completes where it has none. -/
theorem exec_eq (i : Instr) (s : State) :
    exec i s = (execHaltCause i s).elim (.next (completed i s)) fun r => haltWith r s := by
  cases i with
  | ret =>
    refine (execRet_eq s).trans ?_
    by_cases h : 0 < s.sp.val <;> simp [execHaltCause, h, completed]
  | call nnn =>
    refine (execCall_eq nnn s).trans ?_
    by_cases h : s.sp.val < 16
    · have hset : s.stack.set s.sp.val s.nextPc h = s.stack.setIfInBounds s.sp.val s.nextPc := by
        apply Vector.ext
        intro j hj
        rw [Vector.getElem_set, Vector.getElem_setIfInBounds]
      simp [execHaltCause, h, completed, hset]
    · simp [execHaltCause, h]
  | drw x y n =>
    refine (execDrw_eq x y n s).trans ?_
    by_cases h : addressesOk s.i.toNat n.toNat = true <;> simp [execHaltCause, h, completed, drawn]
  | ldBVx x =>
    refine (execLdBVx_eq x s).trans ?_
    by_cases h : addressesOk s.i.toNat 3 = true <;> simp [execHaltCause, h, completed]
  | storeRegs x =>
    refine (execStoreRegs_eq x s).trans ?_
    by_cases h : addressesOk s.i.toNat (x.val + 1) = true <;> simp [execHaltCause, h, completed, incrementedI]
  | loadRegs x =>
    refine (execLoadRegs_eq x s).trans ?_
    rw [loadRegisters_v_eq_loadedV]
    by_cases h : addressesOk s.i.toNat (x.val + 1) = true <;> simp [execHaltCause, h, completed, incrementedI]
  | ldVxK x =>
    refine (execLdVxK_eq x s).trans ?_
    cases h : s.lowestPressed <;> simp [execHaltCause, completed, h] <;> rfl
  | seImm | sneImm | seReg | sneReg | skp | sknp => exact congrArg Host.Outcome.next (skipIf_eq_skippedPc _)
  | orReg | andReg | xorReg => exact congrArg (fun u : State => Host.Outcome.next u.advance) (writeLogicResult_v _ _ s)
  | _ => rfl

theorem exec_of_execHaltCause_some {r : HaltReason} (h : execHaltCause i s = some r) : exec i s = haltWith r s := by
  rw [exec_eq, h]; rfl

theorem exec_of_execHaltCause_none (h : execHaltCause i s = none) : exec i s = .next (completed i s) := by
  rw [exec_eq, h]; rfl

/-- What an instruction can do: a halt that changes the status alone, or its completion. -/
theorem exec_cases (h : exec i s = .next t) :
    (∃ r, execHaltCause i s = some r ∧ t = s.setStatus (.halted r)) ∨
    (execHaltCause i s = none ∧ t = completed i s) := by
  rw [exec_eq] at h
  cases hc : execHaltCause i s with
  | none => rw [hc] at h; cases h; exact .inr ⟨rfl, rfl⟩
  | some r => rw [hc] at h; cases h; exact .inl ⟨r, rfl, rfl⟩

/-- Every instruction answers a next state. -/
theorem exists_exec_eq_next (i : Instr) (s : State) : ∃ t, exec i s = .next t := by
  rw [exec_eq]
  cases execHaltCause i s <;> exact ⟨_, rfl⟩

/-- A change of the state that neither the check nor the completion of an instruction sees commutes with it. -/
theorem exec_map {f : State → State} (hcause : execHaltCause i (f s) = execHaltCause i s)
    (hhalt : ∀ r, (f s).setStatus (.halted r) = f (s.setStatus (.halted r)))
    (hnext : completed i (f s) = f (completed i s)) (h : exec i s = .next t) : exec i (f s) = .next (f t) := by
  obtain ⟨r, hr, rfl⟩ | ⟨hn, rfl⟩ := exec_cases h
  · rw [exec_of_execHaltCause_some (hcause.trans hr), haltWith_eq, hhalt]
  · rw [exec_of_execHaltCause_none (hcause.trans hn), hnext]

/-! What no completion changes. -/

theorem completed_config (i : Instr) (s : State) : (completed i s).config = s.config := by
  cases i <;> rfl

theorem completed_keys (i : Instr) (s : State) : (completed i s).keys = s.keys := by
  cases i <;> rfl

theorem completed_status (i : Instr) (s : State) : (completed i s).status = s.status := by
  cases i <;> rfl

theorem exec_config (h : exec i s = .next t) : t.config = s.config := by
  obtain ⟨r, -, rfl⟩ | ⟨-, rfl⟩ := exec_cases h
  · rfl
  · exact completed_config i s

theorem exec_keys (h : exec i s = .next t) : t.keys = s.keys := by
  obtain ⟨r, -, rfl⟩ | ⟨-, rfl⟩ := exec_cases h
  · rfl
  · exact completed_keys i s

end Sys2Proof.Machine

/-!
PROOF. Which instruction touches what (10_state.md R21 to R33; R67, R81). What is changed is read off `completed`, one
field at a time; what is not read is shown by running the instruction on a state that differs in that field.
-/
namespace Sys2Proof.Machine

variable {i : Instr} {s t : State}

/-! What changes: one field of a completion, case by case. -/

/-- A field that a halt leaves alone and that differs after an instruction differs after its completion. -/
theorem completed_of_field_ne {α : Type} (field : State → α) (hfield : ∀ r, field (s.setStatus (.halted r)) = field s)
    (h : exec i s = .next t) (hne : field t ≠ field s) : t = completed i s := by
  obtain ⟨r, -, rfl⟩ | ⟨-, rfl⟩ := exec_cases h
  · exact absurd (hfield r) hne
  · rfl

theorem getV_logicV {x j : Index} {r : Byte} (hx : j ≠ x) (hvf : j = 15 → s.config.quirkLogicVfReset = false) :
    (logicV x r s)[j] = s.getV j := by
  have hwrite := getV_writeLogicResult s x j r
  rw [writeLogicResult_v] at hwrite
  refine hwrite.trans ?_
  rw [if_neg fun hq => absurd hq.1 (by simp [hvf hq.2]), if_neg hx]

theorem completed_getV {j : Index} (hd : i.destination ≠ some j) (hl : ∀ x, i = .loadRegs x → x < j)
    (hf : j = 15 → i.writesFlag s.config = false) : (completed i s).getV j = s.getV j := by
  cases i with
  | ldImm x _ | addImm x _ | rnd x _ | ldReg x _ | ldVxDt x =>
    have hx : j ≠ x := fun e => hd (congrArg some e.symm)
    exact (s.getV_setV_ne _ hx : (s.setV x _).getV j = s.getV j)
  | addReg x _ | subReg x _ | shr x _ | subnReg x _ | shl x _ =>
    have hx : j ≠ x := fun e => hd (congrArg some e.symm)
    have hvf : j ≠ vf := fun e => absurd (hf e) (by simp [Instr.writesFlag])
    refine (getV_writeResultAndFlag s x j _ _ : (writeResultAndFlag x _ _ s).getV j = _).trans ?_
    rw [if_neg hvf, if_neg hx]
  | orReg x _ | andReg x _ | xorReg x _ =>
    have hx : j ≠ x := fun e => hd (congrArg some e.symm)
    exact getV_logicV hx hf
  | drw x y n =>
    have hvf : j ≠ vf := fun e => absurd (hf e) (by simp [Instr.writesFlag])
    exact ((s.setFb (drawn x y n s).1).getV_setV_ne _ hvf : (State.setV _ vf _).getV j = s.getV j)
  | ldVxK x =>
    have hx : j ≠ x := fun e => hd (congrArg some e.symm)
    change (s.lowestPressed.elim s.v fun k => s.v.set x (trunc8 k.val))[j] = s.getV j
    cases s.lowestPressed with
    | none => rfl
    | some k => exact s.getV_setV_ne _ hx
  | loadRegs x => exact getV_loadedV.trans (if_neg (not_le.2 (hl x rfl)))
  | _ => rfl

theorem completed_i_ne (h : (completed i s).i ≠ s.i) :
    (∃ nnn, i = .ldI nnn) ∨ (∃ x, i = .addIVx x) ∨ (∃ x, i = .ldFVx x) ∨
    ((∃ x, i = .storeRegs x ∨ i = .loadRegs x) ∧ s.config.quirkMemIncrementI = true) := by
  have hquirk : ∀ x, incrementedI x s ≠ s.i → s.config.quirkMemIncrementI = true := fun x hx => by
    by_contra hq
    exact hx (if_neg hq)
  cases i with
  | ldI | addIVx | ldFVx => simp
  | storeRegs x | loadRegs x => simpa using hquirk x h
  | _ => exact absurd rfl h

theorem completed_sp_ne (h : (completed i s).sp ≠ s.sp) : i = .ret ∨ ∃ nnn, i = .call nnn := by
  cases i with
  | ret | call => simp
  | _ => exact absurd rfl h

theorem completed_stack_ne {j : Index} (h : (completed i s).stack[j] ≠ s.stack[j]) :
    j.val = s.sp.val ∧ ∃ nnn, i = .call nnn := by
  cases i with
  | call nnn =>
    refine ⟨?_, nnn, rfl⟩
    by_contra hj
    exact h ((Vector.getElem_setIfInBounds j.isLt).trans (if_neg (Ne.symm hj)))
  | _ => exact absurd rfl h

theorem completed_dt_ne (h : (completed i s).dt ≠ s.dt) : ∃ x, i = .ldDtVx x := by
  cases i with
  | ldDtVx x => exact ⟨x, rfl⟩
  | _ => exact absurd rfl h

theorem completed_st_ne (h : (completed i s).st ≠ s.st) : ∃ x, i = .ldStVx x := by
  cases i with
  | ldStVx x => exact ⟨x, rfl⟩
  | _ => exact absurd rfl h

/-- Where a completion changes a byte, it stores that byte (R67). -/
theorem completed_byteAt_ne {a : Nat} (h : (completed i s).byteAt a ≠ s.byteAt a) :
    (∃ x, i = .ldBVx x) ∧ s.i.toNat ≤ a ∧ a ≤ s.i.toNat + 2 ∨
    ∃ x, i = .storeRegs x ∧ s.i.toNat ≤ a ∧ a ≤ s.i.toNat + x.val := by
  have hin : ∀ bytes : List Byte, Memory.read s.config a (Memory.writeAll s.config s.i.toNat bytes s.mem) ≠ s.byteAt a →
      s.i.toNat ≤ a ∧ a < s.i.toNat + bytes.length := fun bytes hb => by
    by_contra hout
    exact hb (Memory.read_writeAll_outside s.config bytes s.mem (by omega))
  cases i with
  | ldBVx x =>
    have := hin _ h
    rw [bcdDigits_length] at this
    exact .inl ⟨⟨x, rfl⟩, by omega⟩
  | storeRegs x =>
    have := hin _ h
    rw [registersTo_length] at this
    exact .inr ⟨x, rfl, by omega⟩
  | _ => exact absurd rfl h

/-! What is not read. -/

theorem exec_setSt (b : Byte) (hi : ∀ x, i ≠ .ldStVx x) (h : exec i s = .next t) :
    exec i { s with st := b } = .next { t with st := b } := by
  refine exec_map (f := fun u => { u with st := b }) (by cases i <;> rfl) (fun _ => rfl) ?_ h
  cases i with
  | ldStVx x => exact absurd rfl (hi x)
  | _ => rfl

theorem exec_setMem (m : Memory) (hi : i.accessesMemory = false) (h : exec i s = .next t) :
    exec i { s with mem := m } = .next { t with mem := m } := by
  refine exec_map (f := fun u => { u with mem := m }) (by cases i <;> rfl) (fun _ => rfl) ?_ h
  cases i with
  | drw | ldBVx | storeRegs | loadRegs => cases hi
  | _ => rfl

theorem exec_setKeys (ks : Vector Bool 16) (hi : i.readsKeys = false) (h : exec i s = .next t) :
    exec i { s with keys := ks } = .next { t with keys := ks } := by
  refine exec_map (f := fun u => { u with keys := ks }) (by cases i <;> rfl) (fun _ => rfl) ?_ h
  cases i with
  | skp | sknp | ldVxK => cases hi
  | _ => rfl

/-- Reading memory depends on the font in the setting, not on its quirks. -/
theorem State.bytesAt_withQuirks (a b c d : Bool) (base len : Nat) :
    (s.withQuirks a b c d).bytesAt base len = s.bytesAt base len :=
  List.map_congr_left fun _ _ => Memory.read_congr (c := (s.withQuirks a b c d).config) (d := s.config) rfl rfl _ _

theorem exec_withQuirks (a b c d : Bool) (hi : i.hasQuirk = false) (h : exec i s = .next t) :
    exec i (s.withQuirks a b c d) = .next (t.withQuirks a b c d) := by
  refine exec_map (f := State.withQuirks a b c d) (by cases i <;> rfl) (fun _ => rfl) ?_ h
  cases i with
  | jpV0 | orReg | andReg | xorReg | shr | shl | storeRegs | loadRegs => cases hi
  | drw x y n =>
    have hdrawn : drawn x y n (s.withQuirks a b c d) = drawn x y n s :=
      congrArg (blitSprite _ _ · _) (State.bytesAt_withQuirks a b c d _ _)
    simp only [completed, hdrawn]
    rfl
  | ldBVx x =>
    have hmem : Memory.writeAll (s.withQuirks a b c d).config s.i.toNat (bcdDigits (s.getV x)) s.mem =
        Memory.writeAll s.config s.i.toNat (bcdDigits (s.getV x)) s.mem :=
      Memory.writeAll_congr (c := (s.withQuirks a b c d).config) (d := s.config) rfl rfl _ _ _
    exact congrArg (fun m => ((s.withQuirks a b c d).setMem m).advance) hmem
  | _ => rfl

/-- A dead stack entry: RET reads below SP and CALL overwrites the entry at SP, so what is left of it is dead again. -/
theorem exec_setDeadEntry {k : Index} (a : Word) (hk : s.sp.val ≤ k.val) (h : exec i s = .next t) :
    ∃ u : State, exec i { s with stack := s.stack.set k a } = .next u ∧
      u = { t with stack := u.stack } ∧ ∀ j : Index, j.val < t.sp.val → u.stack[j] = t.stack[j] := by
  have hcause : execHaltCause i { s with stack := s.stack.set k a } = execHaltCause i s := by cases i <;> rfl
  have hlive : ∀ j : Index, j.val < s.sp.val → (s.stack.set k a)[j] = s.stack[j] := fun j hj =>
    Vector.getElem_set_ne _ _ (by omega)
  obtain ⟨r, hr, rfl⟩ | ⟨hn, rfl⟩ := exec_cases h
  · exact ⟨_, exec_of_execHaltCause_some (hcause.trans hr), rfl, hlive⟩
  · refine ⟨_, exec_of_execHaltCause_none (hcause.trans hn), ?_⟩
    cases i with
    | ret =>
      have hsp : 0 < s.sp.val := by
        by_contra hsp
        simp [execHaltCause, hsp] at hn
      have htop : (s.stack.set k a)[s.sp.val - 1] = s.stack[s.sp.val - 1] := Vector.getElem_set_ne _ _ (by omega)
      refine ⟨by simp only [completed, htop], fun j hj => hlive j ?_⟩
      simp only [completed] at hj
      omega
    | call nnn =>
      refine ⟨rfl, fun j hj => ?_⟩
      simp only [completed] at hj ⊢
      simp only [Fin.getElem_fin, Vector.getElem_setIfInBounds]
      split
      · rfl
      · exact hlive j (by omega)
    | _ => exact ⟨rfl, hlive⟩

end Sys2Proof.Machine

namespace Sys2Proof.Proofs

open Sys2Proof.Machine

/-- Settles O38: a halt keeps the registers, and a completion writes its destination, its range and its flag alone. -/
theorem registersChangedOnlyByTheirWriters : Obligations.RegistersChangedOnlyByTheirWriters := by
  intro i s t j h hd hl hf
  obtain ⟨r, -, rfl⟩ | ⟨-, rfl⟩ := exec_cases h
  · rfl
  · exact completed_getV hd hl hf

/-- Settles O39, by the field I of every completion. -/
theorem indexChangedOnlyByItsWriters : Obligations.IndexChangedOnlyByItsWriters := by
  intro i s t h hne
  obtain rfl := completed_of_field_ne State.i (fun _ => rfl) h hne
  exact completed_i_ne hne

/-- Settles O40, by the fields SP and stack of every completion, and by running on a changed dead entry. -/
theorem stackBelongsToCallAndRet : Obligations.StackBelongsToCallAndRet := by
  intro i s t h
  refine ⟨fun hne => ?_, fun j hne => ?_, fun k a hk => exec_setDeadEntry a hk h⟩
  · obtain rfl := completed_of_field_ne State.sp (fun _ => rfl) h hne
    exact completed_sp_ne hne
  · obtain rfl := completed_of_field_ne (fun u => u.stack[j]) (fun _ => rfl) h hne
    exact completed_stack_ne hne

/-- Settles O41, by the fields DT and ST of every completion. Fx18 overwrites ST whatever it was, and every other
instruction passes it on. -/
theorem timersChangedOnlyByTheirWriters : Obligations.TimersChangedOnlyByTheirWriters := by
  intro i s t h
  refine ⟨fun hne => ?_, fun hne => ?_, fun b => ?_⟩
  · obtain rfl := completed_of_field_ne State.dt (fun _ => rfl) h hne
    exact completed_dt_ne hne
  · obtain rfl := completed_of_field_ne State.st (fun _ => rfl) h hne
    exact completed_st_ne hne
  · by_cases hi : ∃ x, i = .ldStVx x
    · obtain ⟨x, rfl⟩ := hi
      exact .inl ⟨h, x, rfl⟩
    · exact .inr (exec_setSt b (not_exists.1 hi) h)

/-- Settles O43, by the bytes of every completion, and by running on another memory. -/
theorem memoryReachedOnlyByItsInstructions : Obligations.MemoryReachedOnlyByItsInstructions := by
  intro i s t h
  refine ⟨fun a hne => ?_, fun hi m => exec_setMem m hi h⟩
  obtain rfl := completed_of_field_ne (fun u => u.byteAt a) (fun _ => rfl) h hne
  exact completed_byteAt_ne hne

/-- Settles O44: no completion changes a key, and the other instructions run the same on other keys. -/
theorem keysReadOnlyByKeyInstructions : Obligations.KeysReadOnlyByKeyInstructions :=
  fun _ _ _ h => ⟨exec_keys h, fun hi ks => exec_setKeys ks hi h⟩

/-- Settles O46: no completion changes the setting, and the other instructions run the same under other quirks. -/
theorem quirksChangeOnlyTheirInstructions : Obligations.QuirksChangeOnlyTheirInstructions :=
  fun _ _ _ h => ⟨exec_config h, fun hi a b c d => exec_withQuirks a b c d hi h⟩

end Sys2Proof.Proofs

/-!
PROOF. The step (R100 to R103, R240 to R245): it always answers, a halt changes the status alone, and what it returns
and where it leaves PC follow from the instruction it runs.
-/
namespace Sys2Proof.Machine

variable {i : Instr} {s t : State}

/-! The step answers. -/

theorem step_of_halted {r : HaltReason} (hs : s.status = .halted r) : step s = .next s := by
  simp only [step, hs]

theorem step_of_fetchWord_none (hs : s.status = .running) (hw : s.fetchWord = none) :
    step s = .next { s with status := .halted .addressOutOfRange } := by
  simp only [step, hs, hw]
  rfl

theorem step_of_unsupported {op : Word} (hs : s.status = .running) (hw : s.fetchWord = some op)
    (hd : decodeWord op = none) : step s = .next { s with status := .halted (.unsupportedInstruction op) } := by
  simp only [step, hs, hw, hd]
  rfl

/-- Where PC passes the fetch check the word fetched is the one of the two bytes there (R54, R101). -/
theorem State.fetchWord_of_range (hlo : 0x200 ≤ s.pc.toNat) (hhi : s.pc.toNat ≤ 0xFFE) :
    s.fetchWord = some (wordOfBytes (s.byteAt s.pc.toNat) (s.byteAt (s.pc.toNat + 1))) := by
  simp [State.fetchWord, fetchable, hlo, hhi]

theorem State.pc_range_of_fetchInstr (hf : s.fetchInstr = some i) : 0x200 ≤ s.pc.toNat ∧ s.pc.toNat ≤ 0xFFE := by
  obtain ⟨op, hw, -⟩ := State.fetchInstr_eq_some.1 hf
  by_contra hrange
  have hnone : s.fetchWord = none := State.fetchWord_eq_none.2 (by omega)
  rw [hnone] at hw
  cases hw

theorem exists_step_eq_next (s : State) : ∃ t, step s = .next t := by
  cases hs : s.status with
  | halted r => exact ⟨s, step_of_halted hs⟩
  | running =>
    cases hw : s.fetchWord with
    | none => exact ⟨_, step_of_fetchWord_none hs hw⟩
    | some op =>
      cases hd : decodeWord op with
      | none => exact ⟨_, step_of_unsupported hs hw hd⟩
      | some i =>
        rw [step_of_fetchInstr hs (State.fetchInstr_eq_some.2 ⟨op, hw, hd⟩)]
        exact exists_exec_eq_next i s

/-! The draw. -/

/-- With the draw that `step` would take, the rule is the rule. -/
theorem execWith_randomDraw (i : Instr) (s : State) : execWith (Config.randomDraw s.draws) i s = exec i s := by
  cases i <;> rfl

theorem execWith_of_not_rnd (r : Byte) (hi : ∀ x kk, i ≠ .rnd x kk) : execWith r i s = exec i s := by
  cases i with
  | rnd x kk => exact absurd rfl (hi x kk)
  | _ => rfl

theorem stepWith_of_fetchInstr (r : Byte) (hs : s.status = .running) (hf : s.fetchInstr = some i) :
    stepWith r s = execWith r i s := by
  simp only [stepWith, hs, hf]

/-- A draw reaches the step only through the rule of the fetched instruction. -/
theorem stepWith_eq_step {r : Byte} (h : ∀ i, s.fetchInstr = some i → execWith r i s = exec i s) :
    stepWith r s = step s := by
  unfold stepWith
  split
  case h_1 i hs hf => rw [h i hf, step_of_fetchInstr hs hf]
  case h_2 => rfl

theorem exists_execWith_eq_next (r : Byte) (i : Instr) (s : State) : ∃ t, execWith r i s = .next t := by
  unfold execWith
  split
  · exact ⟨_, rfl⟩
  · exact exists_exec_eq_next i s

theorem exists_stepWith_eq_next (r : Byte) (s : State) : ∃ t, stepWith r s = .next t := by
  unfold stepWith
  split
  case h_1 i hs hf => exact exists_execWith_eq_next r i s
  case h_2 => exact exists_step_eq_next s

/-! What the step returns. -/

theorem stepOutput_of_step (h : step s = .next t) : stepOutput s = some (outputAfter s t) := by
  simp only [stepOutput, h]

/-- The step from `s` waits where it runs an Fx0A and no key is pressed (R103, R183). -/
theorem State.waitsForKey_iff :
    s.waitsForKey = true ↔ (∃ x, s.fetchInstr = some (.ldVxK x)) ∧ ∀ k : Index, s.keys[k] = false := by
  rw [← State.lowestPressed_eq_none]
  unfold State.waitsForKey
  split
  case h_1 x hf => simp [hf]
  case h_2 hf => simpa using fun x hx => absurd hx (hf x)

theorem outputAfter_of_running (ht : t.status = .running) :
    outputAfter s t = if s.waitsForKey then .awaitingKey else .continues := by
  simp only [outputAfter, ht]

/-! Precise halts. -/

theorem step_halted_precise {r : HaltReason} (hs : s.status = .running) (h : step s = .next t)
    (ht : t.status = .halted r) : t = { s with status := .halted r } := by
  rcases step_cases h with ⟨r', hr', -⟩ | ⟨-, ⟨-, rfl⟩ | ⟨op, -, -, rfl⟩ | ⟨i, -, he⟩⟩
  · rw [hs] at hr'
    cases hr'
  · cases ht
    rfl
  · cases ht
    rfl
  · exact Host.Outcome.next.inj (he.symm.trans (exec_of_execHaltCause_some ((exec_halted_iff hs he).1 ht)))

/-! Where a completion leaves PC. -/

theorem pc_add_toNat (hpc : s.pc.toNat ≤ 0xFFE) :
    (s.pc + 2).toNat = s.pc.toNat + 2 ∧ (s.pc + 4).toNat = s.pc.toNat + 4 := by
  have h2 : (2 : Word).toNat = 2 := rfl
  have h4 : (4 : Word).toNat = 4 := rfl
  rw [BitVec.toNat_add, BitVec.toNat_add]
  omega

theorem skippedPc_toNat (hpc : s.pc.toNat ≤ 0xFFE) (taken : Bool) :
    (skippedPc taken s).toNat = s.pc.toNat + 2 ∨ (skippedPc taken s).toNat = s.pc.toNat + 4 := by
  cases taken
  · exact .inl (pc_add_toNat hpc).1
  · exact .inr (pc_add_toNat hpc).2

/-- The exact sum of Bnnn fits PC (R107). -/
theorem jumpSum_toNat (nnn : Addr12) (b : Byte) : (trunc16 (nnn.toNat + b.toNat)).toNat = nnn.toNat + b.toNat := by
  rw [trunc16, BitVec.toNat_ofNat]
  omega

theorem jumpOffset_eq (x : Index) : jumpOffset x s = s.getV (if s.config.quirkJumpVx then x else 0) := by
  unfold jumpOffset
  split <;> rfl

/-- Where R24 lets an instruction that completes leave PC. -/
def MovesPcTo (i : Instr) (s : State) (a : Word) : Prop :=
  match i with
  | .ret => ∃ k : Index, s.sp.val = k.val + 1 ∧ a = s.stack[k]
  | .jp nnn | .call nnn => a.toNat = nnn.toNat
  | .jpV0 x nnn => a.toNat = nnn.toNat + (s.getV (if s.config.quirkJumpVx then x else 0)).toNat
  | .seImm _ _ | .sneImm _ _ | .seReg _ _ | .sneReg _ _ | .skp _ | .sknp _ =>
    a.toNat = s.pc.toNat + 2 ∨ a.toNat = s.pc.toNat + 4
  | .ldVxK _ => a.toNat = if s.lowestPressed.isNone then s.pc.toNat else s.pc.toNat + 2
  | _ => a.toNat = s.pc.toNat + 2

theorem completed_movesPcTo (hpc : s.pc.toNat ≤ 0xFFE) (hc : execHaltCause i s = none) :
    MovesPcTo i s (completed i s).pc := by
  cases i with
  | ret =>
    have hsp : 0 < s.sp.val := by
      by_contra hsp
      simp [execHaltCause, hsp] at hc
    exact ⟨⟨s.sp.val - 1, by omega⟩, by simp only; omega, rfl⟩
  | jp nnn | call nnn => exact zext16_toNat nnn
  | jpV0 x nnn =>
    rw [MovesPcTo, ← jumpOffset_eq]
    exact jumpSum_toNat nnn _
  | seImm | sneImm | seReg | sneReg | skp | sknp => exact skippedPc_toNat hpc _
  | ldVxK x =>
    simp only [MovesPcTo, completed]
    split
    · rfl
    · exact (pc_add_toNat hpc).1
  | _ => exact (pc_add_toNat hpc).1

end Sys2Proof.Machine

namespace Sys2Proof.Proofs

open Sys2Proof.Machine

/-- Settles O29: the two bytes are the fetched word, so decoding them is fetching the instruction. -/
theorem stepRunsTheDecodedInstruction : Obligations.StepRunsTheDecodedInstruction := by
  intro s i hs hlo hhi hd
  refine step_of_fetchInstr hs (State.fetchInstr_eq_some.2 ⟨_, State.fetchWord_of_range hlo hhi, ?_⟩)
  cases hw : decodeWord (wordOfBytes (s.byteAt s.pc.toNat) (s.byteAt (s.pc.toNat + 1))) with
  | none => simp [decode, hw] at hd
  | some j => simpa [decode, hw] using hd

/-- Settles O30: the three ways a step ends before any instruction, with what each returns. -/
theorem stepChecksInOrder : Obligations.StepChecksInOrder := by
  intro s
  refine ⟨fun r hr => ?_, fun hs hpc => ?_, fun op hs hlo hhi hop hd => ?_⟩
  · have h := step_of_halted hr
    exact ⟨h, stepOutput_of_halted h hr⟩
  · have h := step_of_fetchWord_none hs (State.fetchWord_eq_none.2 hpc)
    exact ⟨h, stepOutput_of_halted h rfl⟩
  · have hword : wordOfBytes (s.byteAt s.pc.toNat) (s.byteAt (s.pc.toNat + 1)) = op := by
      apply BitVec.eq_of_toNat_eq
      rw [wordOfBytes, append_toNat, hop]
      rfl
    have h := step_of_unsupported hs (hword ▸ State.fetchWord_of_range hlo hhi) hd
    exact ⟨h, stepOutput_of_halted h rfl⟩

/-- Settles O31: every way through the step ends in a next state, because every instruction does. -/
theorem stepIsTotal : Obligations.StepIsTotal := by
  intro s
  obtain ⟨t, h⟩ := exists_step_eq_next s
  exact ⟨⟨t, h⟩, fun r => exists_stepWith_eq_next r s, ⟨_, stepOutput_of_step h⟩⟩

/-- Settles O32: each way to halt changes the status alone. -/
theorem haltsArePrecise : Obligations.HaltsArePrecise := fun _ _ _ => step_halted_precise

/-- Settles O34: the step of a halted engine answers the same state, so a run stays in it. -/
theorem haltsAreTerminal : Obligations.HaltsAreTerminal := by
  intro s r k hs
  have h := step_of_halted hs
  exact ⟨run_of_step_same Sys2Proof.core h k, stepOutput_of_halted h hs⟩

/-- Settles O35: the output reads the status it leaves first, and then whether the step waits. -/
theorem stepReturnsItsStatus : Obligations.StepReturnsItsStatus := by
  intro s t h
  rw [stepOutput_of_step h, ← State.waitsForKey_iff]
  cases ht : t.status with
  | halted r => simp [outputAfter, ht]
  | running => cases hw : s.waitsForKey <;> simp [outputAfter_of_running ht, hw]

/-- Settles O36: a halt keeps PC, and a completion leaves it where `MovesPcTo` says. -/
theorem stepMovesPc : Obligations.StepMovesPc := by
  intro s t i hs hf h
  rw [step_of_fetchInstr hs hf] at h
  obtain ⟨r, -, rfl⟩ | ⟨hc, rfl⟩ := exec_cases h
  · exact ⟨fun _ => rfl, fun ht => absurd ht (by simp)⟩
  · refine ⟨fun ht => absurd ((completed_status i s).trans hs) ht, fun _ => ?_⟩
    have hpc := completed_movesPcTo (State.pc_range_of_fetchInstr hf).2 hc
    cases i <;> exact hpc

/-- Settles O37: the draw reaches the step through Cxkk alone, and there it is the one given. -/
theorem onlyRndReadsTheDraw : Obligations.OnlyRndReadsTheDraw := by
  intro s
  refine ⟨(stepWith_eq_step fun i _ => execWith_randomDraw i s).symm, fun hrnd r => stepWith_eq_step fun i hf => ?_⟩
  exact execWith_of_not_rnd r fun x kk hi => hrnd x kk (hi ▸ hf)

end Sys2Proof.Proofs

/-!
PROOF. The invariants (R41, R50, R279) along steps and along the host's moves (R255, R261). A completion keeps each part
of `State.Inv` by the one field that the part reads; the key wait is kept because only Fx0A sets `awaiting`, and it then
leaves everything that a fetch reads.
-/
namespace Sys2Proof.Machine

variable {i : Instr} {s t : State}

/-! The machine's invariant, part by part. -/

/-- Where an instruction's address check does not halt it, the check holds. -/
theorem addressesOk_of_no_halt {base len : Nat}
    (h : (if addressesOk base len = true then none else some HaltReason.addressOutOfRange) = none) :
    addressesOk base len = true := by
  by_contra hno
  rw [if_neg hno] at h
  cases h

theorem completed_mem_wf (hm : Memory.wf s.config s.mem = true) (hc : execHaltCause i s = none) :
    Memory.wf s.config (completed i s).mem = true := by
  cases i with
  | ldBVx x => exact Memory.wf_writeAll s.config _ _ (addressesOk_of_no_halt hc) hm
  | storeRegs x =>
    refine Memory.wf_writeAll s.config _ _ ?_ hm
    rw [registersTo_length]
    exact addressesOk_of_no_halt hc
  | _ => exact hm

theorem completed_pc_le (hpc : s.pc.toNat ≤ 0xFFE) (hc : execHaltCause i s = none)
    (hlive : ∀ j : Index, j.val < s.sp.val → returnAddressOk s.stack[j] = true) :
    (completed i s).pc.toNat ≤ 0x10FE := by
  have hto := completed_movesPcTo hpc hc
  cases i with
  | ret =>
    obtain ⟨k, hk, htop⟩ := hto
    have hret := hlive k (by omega)
    simp only [returnAddressOk, Bool.and_eq_true, decide_eq_true_eq] at hret
    rw [htop]
    omega
  | jp nnn | call nnn =>
    refine (le_of_eq hto).trans ?_
    omega
  | jpV0 x nnn =>
    refine (le_of_eq hto).trans ?_
    omega
  | seImm | sneImm | seReg | sneReg | skp | sknp => rcases hto with h | h <;> rw [h] <;> omega
  | ldVxK x =>
    refine (le_of_eq hto).trans ?_
    split <;> omega
  | _ =>
    refine (le_of_eq hto).trans ?_
    omega

theorem completed_stack_live (hlo : 0x200 ≤ s.pc.toNat) (hhi : s.pc.toNat ≤ 0xFFE)
    (hlive : ∀ j : Index, j.val < s.sp.val → returnAddressOk s.stack[j] = true) :
    ∀ j : Index, j.val < (completed i s).sp.val → returnAddressOk (completed i s).stack[j] = true := by
  intro j hj
  cases i with
  | ret =>
    simp only [completed] at hj
    exact hlive j (by omega)
  | call nnn =>
    have hnext : returnAddressOk s.nextPc = true := by
      have hpc := (pc_add_toNat hhi).1
      simp only [returnAddressOk, State.nextPc, hpc, Bool.and_eq_true, decide_eq_true_eq]
      omega
    simp only [completed] at hj
    simp only [completed, Fin.getElem_fin, Vector.getElem_setIfInBounds]
    split
    · exact hnext
    · exact hlive j (by omega)
  | _ => exact hlive j hj

theorem completed_inv (hs : s.Inv) (hf : s.fetchInstr = some i) (hc : execHaltCause i s = none) :
    (completed i s).Inv := by
  obtain ⟨hconfig, hm, -, hlive⟩ := hs
  obtain ⟨hlo, hhi⟩ := State.pc_range_of_fetchInstr hf
  rw [State.Inv, completed_config]
  exact ⟨hconfig, completed_mem_wf hm hc, completed_pc_le hhi hc hlive, completed_stack_live hlo hhi hlive⟩

theorem exec_inv (hs : s.Inv) (hf : s.fetchInstr = some i) (h : exec i s = .next t) : t.Inv := by
  obtain ⟨r, -, rfl⟩ | ⟨hc, rfl⟩ := exec_cases h
  · exact hs
  · exact completed_inv hs hf hc

/-- Whatever the draw, Cxkk ends as it does with another draw, up to V[x]. -/
theorem rndWith_eq (r : Byte) (x : Index) (kk : Byte) :
    rndWith r x kk s = .next { completed (.rnd x kk) s with v := s.v.set x (r &&& kk) } := rfl

theorem step_inv (hs : s.Inv) (h : step s = .next t) : t.Inv := by
  rcases step_cases h with ⟨-, -, rfl⟩ | ⟨-, ⟨-, rfl⟩ | ⟨-, -, -, rfl⟩ | ⟨i, hf, he⟩⟩
  · exact hs
  · exact hs
  · exact hs
  · exact exec_inv hs hf he

theorem stepWith_inv {r : Byte} (hs : s.Inv) (h : stepWith r s = .next t) : t.Inv := by
  obtain ⟨i, -, hf, hw⟩ | h := stepWith_cases h
  · obtain he | ⟨x, kk, rfl, hr⟩ := execWith_cases hw
    · exact exec_inv hs hf he
    · rw [rndWith_eq] at hr
      cases hr
      exact completed_inv (i := .rnd x kk) hs hf rfl
  · exact step_inv hs h

/-! The key wait. -/

/-- An awaiting core that meets the invariant fetches an Fx0A, whatever it fetches. -/
theorem State.KeyWaitInv.fetch {s : State} (hs : s.KeyWaitInv) (ha : s.awaiting = true) (hf : s.fetchInstr = some i) :
    ∃ x, i = .ldVxK x := by
  obtain ⟨-, x, hx⟩ := hs ha
  exact ⟨x, Option.some.inj (hf.symm.trans hx)⟩

/-- Where no key is pressed, Fx0A does nothing but set `awaiting` (R183). -/
theorem execLdVxK_of_no_key (x : Index) (hk : ∀ k : Index, s.keys[k] = false) :
    execLdVxK x s = .next (s.setAwaiting true) := by
  rw [execLdVxK, State.lowestPressed_eq_none.2 hk]

theorem exec_keyWaitInv (hs : s.KeyWaitInv) (hrun : s.status = .running) (hf : s.fetchInstr = some i)
    (h : exec i s = .next t) : t.KeyWaitInv := by
  intro ht
  by_cases hi : ∃ x, i = .ldVxK x
  · obtain ⟨x, rfl⟩ := hi
    have hk := (execLdVxK_awaiting x h).1 ht
    obtain rfl := Host.Outcome.next.inj ((execLdVxK_of_no_key x hk).symm.trans h)
    exact ⟨hrun, x, hf⟩
  · rw [exec_awaiting (not_exists.1 hi) h] at ht
    exact absurd (hs.fetch ht hf) hi

theorem step_keyWaitInv (hs : s.KeyWaitInv) (h : step s = .next t) : t.KeyWaitInv := by
  rcases step_cases h with ⟨-, -, rfl⟩ | ⟨hrun, ⟨hw, rfl⟩ | ⟨op, hw, hd, rfl⟩ | ⟨i, hf, he⟩⟩
  · exact hs
  · intro ht
    obtain ⟨-, x, hx⟩ := hs ht
    simp [State.fetchInstr, hw] at hx
  · intro ht
    obtain ⟨-, x, hx⟩ := hs ht
    simp [State.fetchInstr, hw, hd] at hx
  · exact exec_keyWaitInv hs hrun hf he

theorem stepWith_keyWaitInv {r : Byte} (hs : s.KeyWaitInv) (h : stepWith r s = .next t) : t.KeyWaitInv := by
  obtain ⟨i, hrun, hf, hw⟩ | h := stepWith_cases h
  · obtain he | ⟨x, kk, rfl, hr⟩ := execWith_cases hw
    · exact exec_keyWaitInv hs hrun hf he
    · intro ht
      cases hr
      obtain ⟨y, hy⟩ := hs.fetch ht hf
      cases hy
  · exact step_keyWaitInv hs h

/-- While no key is pressed a waiting core's step changes nothing (R183). -/
theorem step_of_waiting (hs : s.KeyWaitInv) (ha : s.awaiting = true) (hk : ∀ k : Index, s.keys[k] = false) :
    step s = .next s := by
  obtain ⟨hrun, x, hx⟩ := hs ha
  have hsame : s.setAwaiting true = s := by rw [← ha]; rfl
  rw [step_of_fetchInstr hrun hx]
  exact (execLdVxK_of_no_key x hk).trans (congrArg _ hsame)

/-! Construction and the host's moves. -/

theorem construct_inv {c : Config} (hc : c.wf = true) : (construct c).Inv :=
  ⟨hc, construct_mem_wf c, (by decide : (0x0200 : Word).toNat ≤ 0x10FE), fun _ hj => absurd hj (Nat.not_lt_zero _)⟩

theorem construct_keyWaitInv (c : Config) : (construct c).KeyWaitInv := fun h => by cases h

theorem Session.fresh_inv {c : Config} (hc : c.wf = true) : (Session.fresh c).Inv :=
  ⟨construct_inv hc, construct_keyWaitInv c, fun h => by cases h⟩

/-- `load_rom` changes memory alone, where the ROM fits. -/
theorem loadRom_eq_ok {bytes : List Byte} :
    loadRom bytes s = .ok t ↔
      bytes.length ≤ 0xE00 ∧ t = s.setMem (Memory.writeAll s.config 0x200 bytes s.mem) := by
  have hfits : romFits bytes = true ↔ bytes.length ≤ 0xE00 := decide_eq_true_iff
  unfold loadRom
  split
  · simp [hfits.1 ‹_›, eq_comm]
  · simp [mt hfits.2 ‹_›]

theorem loadRom_inv {bytes : List Byte} (hs : s.Inv) (h : loadRom bytes s = .ok t) : t.Inv := by
  obtain ⟨hlen, rfl⟩ := loadRom_eq_ok.1 h
  obtain ⟨hconfig, hm, hpc, hlive⟩ := hs
  exact ⟨hconfig, Memory.wf_writeAll s.config _ _ (addressesOk_iff.2 (by omega)) hm, hpc, hlive⟩

/-- The pressed-key signal changes the keys alone. -/
theorem setPressedKeySignal_eq_ok {v : Byte} (h : setPressedKeySignal v s = .ok t) : t = { s with keys := t.keys } := by
  unfold setPressedKeySignal at h
  split at h <;> cases h
  rfl

/-- A mapped request is performed where the request is. -/
theorem map_eq_ok {ε α β : Type} {e : Except ε α} {f : α → β} {b : β} :
    e.map f = .ok b ↔ ∃ a, e = .ok a ∧ f a = b := by
  cases e <;> simp [Except.map]

/-- Every move of the host that is performed keeps the session's invariants. -/
theorem Session.perform_inv {p q : Session} {op : HostOp} (hp : p.Inv) (h : p.perform op = .ok q) : q.Inv := by
  obtain ⟨hinv, hwait, hbegun⟩ := hp
  cases op with
  | construct c =>
    simp only [Session.perform] at h
    split at h <;> cases h
    exact Session.fresh_inv ‹_›
  | loadRom bytes =>
    simp only [Session.perform] at h
    split at h
    · cases h
    · rename_i hnot
      obtain ⟨t, ht, rfl⟩ := map_eq_ok.1 h
      have hna : p.engine.awaiting = true → False := fun ha => hnot (hbegun ha)
      have hsame : t.awaiting = p.engine.awaiting := by rw [(loadRom_eq_ok.1 ht).2]; rfl
      exact ⟨loadRom_inv hinv ht, fun ha => (hna (hsame ▸ ha)).elim, fun ha => (hna (hsame ▸ ha)).elim⟩
  | step r =>
    obtain ⟨t, ht⟩ := exists_stepWith_eq_next r p.engine
    simp only [Session.perform, ht] at h
    cases h
    exact ⟨stepWith_inv hinv ht, stepWith_keyWaitInv hwait ht, fun _ => rfl⟩
  | setKey k b =>
    cases h
    exact ⟨hinv, hwait, hbegun⟩
  | setPressedKeySignal v =>
    obtain ⟨t, ht, rfl⟩ := map_eq_ok.1 h
    have hkeys := setPressedKeySignal_eq_ok ht
    generalize t.keys = ks at hkeys
    subst hkeys
    exact ⟨hinv, hwait, hbegun⟩
  | tick =>
    cases h
    exact ⟨hinv, hwait, hbegun⟩
  | start =>
    simp only [Session.perform] at h
    split at h <;> cases h
    exact ⟨hinv, hwait, hbegun⟩
  | readDisplay =>
    cases h
    exact ⟨hinv, hwait, hbegun⟩

theorem Session.Reachable.inv {p : Session} (hp : p.Reachable) : p.Inv := by
  induction hp with
  | fresh c hc => exact Session.fresh_inv hc
  | perform op p q _ h ih => exact Session.perform_inv ih h

end Sys2Proof.Machine

namespace Sys2Proof.Proofs

open Sys2Proof.Machine

/-- Settles O47: nothing is listed, stacked or awaited after construction. -/
theorem constructedStateMeetsInvariant : Obligations.ConstructedStateMeetsInvariant :=
  ⟨fun c hc => ⟨construct_inv hc, construct_keyWaitInv c⟩, construct_inv (by decide), construct_keyWaitInv _⟩

/-- Settles O48, for `step` and for a step with any draw. -/
theorem stepKeepsInvariant : Obligations.StepKeepsInvariant := by
  rintro s t hs (h | ⟨r, h⟩)
  · exact step_inv hs h
  · exact stepWith_inv hs h

/-- Settles O49: only Fx0A sets `awaiting`, and it then stands still. -/
theorem stepKeepsKeyWait : Obligations.StepKeepsKeyWait := by
  intro s t hs h
  refine ⟨step_keyWaitInv hs h, fun ha hk => ?_⟩
  exact Host.Outcome.next.inj (h.symm.trans (step_of_waiting hs ha hk))

/-- Settles O50, by induction over the host's moves. -/
theorem reachableSessionsMeetInvariants : Obligations.ReachableSessionsMeetInvariants :=
  ⟨fun _ _ _ => Session.perform_inv, fun _ => Session.fresh_inv, fun _ => Session.Reachable.inv⟩

end Sys2Proof.Proofs

/-!
PROOF. The register ALU (R132 to R140, R143, R144): every result with a flag is `writeResultAndFlag` and every logic
result `writeLogicResult`, so the frame is shown once for each, and what is left of an instruction is its arithmetic.
-/
namespace Sys2Proof.Machine

variable (s : State) (x y : Index)

theorem flagByte_toNat (b : Bool) : (flagByte b).toNat = if b then 1 else 0 := by
  cases b <;> rfl

theorem sum8_toNat (a b : Byte) : (sum8 a b).toNat = (a.toNat + b.toNat) % 256 := BitVec.toNat_ofNat ..

theorem difference8_toNat (a b : Byte) : (difference8 a b).toNat = (((a.toNat : Int) - b.toNat) % 256).toNat := by
  rw [difference8, trunc8, BitVec.toNat_ofNat]
  omega

theorem carryFlag_toNat (a b : Byte) : (carryFlag a b).toNat = if a.toNat + b.toNat > 255 then 1 else 0 := by
  simp [carryFlag, flagByte_toNat]

theorem notBorrowFlag_toNat (a b : Byte) : (notBorrowFlag a b).toNat = if a ≥ b then 1 else 0 := by
  simp [notBorrowFlag, flagByte_toNat, BitVec.le_def]

/-- A shift right halves, and the bit it drops is the remainder (R138). -/
theorem shiftRight_toNat (b : Byte) : (b >>> 1).toNat = b.toNat / 2 ∧ (shiftedOutRight b).toNat = b.toNat % 2 := by
  revert b
  decide

/-- A shift left doubles modulo 256, and the bit it drops is whether the double exceeds 255 (R140). -/
theorem shiftLeft_toNat (b : Byte) :
    (b <<< 1).toNat = b.toNat * 2 % 256 ∧ (shiftedOutLeft b).toNat = b.toNat / 128 := by
  revert b
  decide

/-- A result and a flag, and moving on (R144). -/
theorem flagResult_writeResultAndFlag {result flag : Byte} {r f : Nat} (hr : result.toNat = r) (hf : flag.toNat = f) :
    FlagResult s (writeResultAndFlag x result flag s).advance x r f := by
  have hget : ∀ j, (writeResultAndFlag x result flag s).advance.getV j =
      if j = 15 then flag else if j = x then result else s.getV j := fun j => getV_writeResultAndFlag s x j result flag
  refine ⟨rfl, ?_, fun hx => ?_, fun j hj hvf => ?_⟩
  · rw [hget, if_pos rfl, hf]
  · rw [hget, if_neg hx, if_pos rfl, hr]
  · rw [hget, if_neg hvf, if_neg hj]

/-- A logic result, and moving on (R133 to R135, R144). -/
theorem logicResult_writeLogicResult (r : Byte) : LogicResult s (writeLogicResult x r s).advance x r := by
  have hget : ∀ j, (writeLogicResult x r s).advance.getV j = _ := fun j => getV_writeLogicResult s x j r
  refine ⟨by rw [writeLogicResult_eq]; rfl, fun j hj hvf => ?_, fun hq => ⟨?_, fun hx => ?_⟩,
    fun hq => ⟨?_, fun hx => ?_⟩⟩
  · rw [hget, if_neg (fun h => hvf h.2), if_neg hj]
  · rw [hget, if_pos ⟨hq, rfl⟩]
  · rw [hget, if_neg (fun h => hx h.2), if_pos rfl]
  · rw [hget, if_neg (fun h => by simp [hq] at h), if_pos rfl]
  · rw [hget, if_neg (fun h => by simp [hq] at h), if_neg (Ne.symm hx)]

/-- Copying a register to itself leaves the registers as they are. -/
theorem setV_getV_self : s.setV x (s.getV x) = s := by
  have hv : s.v.set x s.v[x] = s.v := by simp
  change { s with v := s.v.set x s.v[x] } = s
  rw [hv]

end Sys2Proof.Machine

namespace Sys2Proof.Proofs

open Sys2Proof.Machine

/-- Settles O9: the copy writes one register, and the three logic instructions are one logic result. -/
theorem copyAndLogicResults : Obligations.CopyAndLogicResults := by
  intro x y
  refine ⟨decodeWord_ofNat rfl ?_, decodeWord_ofNat rfl ?_, decodeWord_ofNat rfl ?_, decodeWord_ofNat rfl ?_,
    fun s => ⟨⟨_, rfl, regResult_setV_advance s x _⟩, ?_, ⟨_, rfl, logicResult_writeLogicResult s x _⟩,
      ⟨_, rfl, logicResult_writeLogicResult s x _⟩, ⟨_, rfl, logicResult_writeLogicResult s x _⟩⟩⟩
  case refine_5 => exact congrArg (fun u : State => Host.Outcome.next u.advance) (setV_getV_self s x)
  all_goals simp [encode, packXYN_toNat]; omega

/-- Settles O10: the sum and its carry as a result and a flag. -/
theorem addSetsCarry : Obligations.AddSetsCarry := by
  intro x y
  refine ⟨decodeWord_ofNat rfl ?_, fun s =>
    ⟨_, rfl, flagResult_writeResultAndFlag s x (sum8_toNat _ _) (carryFlag_toNat _ _)⟩⟩
  simp [encode, packXYN_toNat]; omega

/-- Settles O11: the difference and its not-borrow, in both orders of the operands. -/
theorem subtractionsSetNotBorrow : Obligations.SubtractionsSetNotBorrow := by
  intro x y
  refine ⟨decodeWord_ofNat rfl ?_, decodeWord_ofNat rfl ?_, fun s =>
    ⟨⟨_, rfl, flagResult_writeResultAndFlag s x (difference8_toNat _ _) (notBorrowFlag_toNat _ _)⟩,
      ⟨_, rfl, flagResult_writeResultAndFlag s x (difference8_toNat _ _) (notBorrowFlag_toNat _ _)⟩⟩⟩
  all_goals simp [encode, packXYN_toNat]; omega

/-- Settles O12: the quirk's register is `shiftSource`, and a shift and its dropped bit are a result and a flag. -/
theorem shiftsSetShiftedOutBit : Obligations.ShiftsSetShiftedOutBit := by
  intro x y
  refine ⟨decodeWord_ofNat rfl ?_, decodeWord_ofNat rfl ?_, ?_⟩
  case refine_3 =>
    rintro s _ rfl
    exact ⟨⟨_, rfl, flagResult_writeResultAndFlag s x (shiftRight_toNat _).1 (shiftRight_toNat _).2⟩,
      ⟨_, rfl, flagResult_writeResultAndFlag s x (shiftLeft_toNat _).1 (shiftLeft_toNat _).2⟩⟩
  all_goals simp [encode, packXYN_toNat]; omega

end Sys2Proof.Proofs

/-!
PROOF. Control transfer, the skips on registers and keys, the key wait, the random byte, the timers and the index
(R104, R106, R107, R110, R111, R142, R161, R180 to R183, R200, R202, R210, R211).
-/
namespace Sys2Proof.Machine

variable (s : State) (x : Index)

/-- The closed form of a skip, with its condition as a proposition. -/
theorem skipIf_eq_ite {taken : Bool} {p : Prop} [Decidable p] (h : taken = true ↔ p) :
    s.skipIf taken = { s with pc := if p then s.pc + 4 else s.pc + 2 } := by
  rw [State.skipIf_eq]
  exact congrArg s.setPc (if_congr h rfl rfl)

theorem pressed_of_key {s : State} {b : Byte} {k : Index} (h : b.toNat = k.val) : s.pressed b = s.keys[k] := by
  simp [State.pressed, h]

theorem pressed_of_no_key {s : State} {b : Byte} (h : b.toNat > 0xF) : s.pressed b = false := by
  simp only [State.pressed, dif_neg (show ¬ b.toNat < 16 by omega)]

/-- SKP and SKNP by whether V[x] names a pressed key (R181, R182). -/
theorem exec_key_skips {b : Bool} (h : s.pressed (s.getV x) = b) :
    exec (.skp x) s = .next { s with pc := if b then s.pc + 4 else s.pc + 2 } ∧
    exec (.sknp x) s = .next { s with pc := if b then s.pc + 2 else s.pc + 4 } := by
  change Host.Outcome.next (s.skipIf (s.pressed (s.getV x))) = _ ∧
    Host.Outcome.next (s.skipIf (!s.pressed (s.getV x))) = _
  rw [h]
  cases b <;> exact ⟨rfl, rfl⟩

/-- Fx0A with a key pressed loads the lowest one and moves on (R183). -/
theorem execLdVxK_of_lowest {s : State} {k : Index} (h : s.lowestPressed = some k) :
    execLdVxK x s = .next ((s.setV x (trunc8 k.val)).setAwaiting false).advance := by
  simp only [execLdVxK, h]

/-- A running engine at an instruction that ends running: what the step answers and returns (R101, R103). -/
theorem step_and_output {s t : State} {i : Instr} (hs : s.status = .running) (hf : s.fetchInstr = some i)
    (h : exec i s = .next t) (ht : t.status = .running) {b : Bool} (hb : s.waitsForKey = b) :
    step s = .next t ∧ stepOutput s = some (if b then .awaitingKey else .continues) := by
  have hstep := (step_of_fetchInstr hs hf).trans h
  rw [← hb]
  exact ⟨hstep, (stepOutput_of_step hstep).trans (congrArg some (outputAfter_of_running ht))⟩

/-- The glyph address does not wrap (R211). -/
theorem glyphAddress_toNat (v : Byte) :
    (glyphAddress v s).toNat = s.config.fontBase.toNat + 5 * (v.toNat % 16) := by
  have hlow : (v &&& 0x0F).toNat = v.toNat % 16 := by
    rw [BitVec.toNat_and]
    exact Nat.and_two_pow_sub_one_eq_mod v.toNat 4
  rw [glyphAddress, trunc16, BitVec.toNat_ofNat, hlow]
  omega

theorem pixel_blank (px : Fin 64) (py : Fin 32) : Framebuffer.blank.pixel px py = false := by
  simp [Framebuffer.pixel, Framebuffer.blank]

/-- A draw, masked, and moving on: the frame of Cxkk (R142). -/
theorem rndWith_frame (r : Byte) (kk : Byte) : ∃ t : State, rndWith r x kk s = .next t ∧ t.getV x = r &&& kk ∧
    (∀ j : Index, j ≠ x → t.getV j = s.getV j) ∧ t = { s with v := t.v, pc := s.pc + 2, draws := s.draws + 1 } :=
  ⟨_, rfl, s.getV_setV_self x _, fun _ hj => s.getV_setV_ne _ hj, rfl⟩

end Sys2Proof.Machine

namespace Sys2Proof.Proofs

open Sys2Proof.Machine

/-- Settles O1: the blank display has no pixel set. -/
theorem clsUnsetsEveryPixel : Obligations.ClsUnsetsEveryPixel :=
  ⟨rfl, fun _ => ⟨_, rfl, pixel_blank, rfl⟩⟩

/-- Settles O2, by the check of RET and by its completion. -/
theorem retPopsOrUnderflows : Obligations.RetPopsOrUnderflows := by
  refine ⟨rfl, fun s => ⟨fun hsp => ?_, fun k hsp => ?_⟩⟩
  · exact exec_of_execHaltCause_some (by simp [execHaltCause, hsp])
  · have hk : s.sp.val - 1 = k.val := by omega
    refine ⟨_, exec_of_execHaltCause_none (by simp [execHaltCause, hsp]), hk, ?_, rfl⟩
    simp [completed, hk]

/-- Settles O4, by the check of CALL and by its completion. -/
theorem callPushesOrOverflows : Obligations.CallPushesOrOverflows := by
  intro nnn
  refine ⟨decodeWord_ofNat rfl (by simp [encode, packNNN_toNat]), fun s => ⟨fun hsp => ?_, fun hsp => ?_⟩⟩
  · exact exec_of_execHaltCause_some (by simp [execHaltCause, hsp])
  · refine ⟨_, exec_of_execHaltCause_none (by simp [execHaltCause, hsp]), Nat.min_eq_left hsp, zext16_toNat nnn,
      fun j => ?_, rfl⟩
    simp only [completed, Fin.getElem_fin, Vector.getElem_setIfInBounds, eq_comm (a := j.val)]
    rfl

/-- Settles O5: the word's own x is the offset register of the quirk, and the sum fits PC. -/
theorem jpV0JumpsToExactSum : Obligations.JpV0JumpsToExactSum := by
  intro x nnn hx
  refine ⟨decodeWord_ofNat (beq_iff_eq.2 hx) (by simp [encode, packNNN_toNat]), fun s =>
    ⟨_, rfl, rfl, fun hq => ?_, fun hq => ?_⟩⟩
  all_goals
    refine (jumpSum_toNat nnn _).trans ?_
    simp [jumpOffset, hq]

/-- Settles O7: the skips in closed form, at x and y and at x twice. -/
theorem registerSkips : Obligations.RegisterSkips := by
  intro x y
  have hse : ∀ (a b : Index) (s : State), exec (.seReg a b) s =
      .next { s with pc := if s.getV a = s.getV b then s.pc + 4 else s.pc + 2 } := fun a b s =>
    congrArg _ (skipIf_eq_ite s beq_iff_eq)
  have hsne : ∀ (a b : Index) (s : State), exec (.sneReg a b) s =
      .next { s with pc := if s.getV a ≠ s.getV b then s.pc + 4 else s.pc + 2 } := fun a b s =>
    congrArg _ (skipIf_eq_ite s bne_iff_ne)
  refine ⟨decodeWord_ofNat rfl ?_, decodeWord_ofNat rfl ?_, fun n hn => ?_, fun s =>
    ⟨hse x y s, hsne x y s, (hse x x s).trans ?_, (hsne x x s).trans ?_⟩⟩
  · simp [encode, packXYN_toNat]; omega
  · simp [encode, packXYN_toNat]; omega
  · have hn : n.toNat ≠ 0 := fun h => hn (BitVec.eq_of_toNat_eq h)
    refine ⟨decodeWord_eq_none_iff_listed.2 (.inr (.inl ?_)),
      decodeWord_eq_none_iff_listed.2 (.inr (.inr (.inr (.inl ?_))))⟩ <;> rw [BitVec.toNat_ofNat] <;> omega
  · rw [if_pos rfl]
  · rw [if_neg (fun h => h rfl)]

/-- Settles O13: the rule for any draw, at the free draw and at the draw of `stepWith`. -/
theorem rndMasksTheDraw : Obligations.RndMasksTheDraw := by
  intro x kk
  refine ⟨decodeWord_ofNat rfl ?_, fun s => rndWith_frame s x _ kk, fun r s hs hf => ?_⟩
  · simp [encode, packXKK_toNat]; omega
  · rw [stepWith_of_fetchInstr r hs hf]
    exact rndWith_frame s x r kk

/-- Settles O16, by what `pressed` says of V[x] in each of the three cases. -/
theorem keySkips : Obligations.KeySkips := by
  intro x
  refine ⟨decodeWord_ofNat rfl ?_, decodeWord_ofNat rfl ?_, fun s =>
    ⟨fun k hk hkey => ?_, fun k hk hkey => ?_, fun hk => ?_⟩⟩
  · simp [encode, packXKK_toNat]; omega
  · simp [encode, packXKK_toNat]; omega
  · exact exec_key_skips s x ((pressed_of_key hk).trans hkey)
  · exact exec_key_skips s x ((pressed_of_key hk).trans hkey)
  · exact exec_key_skips s x (pressed_of_no_key hk)

/-- Settles O17: the lowest pressed key is found where a key is pressed, and otherwise Fx0A waits. -/
theorem keyWaitCompletesOrWaits : Obligations.KeyWaitCompletesOrWaits := by
  intro x
  refine ⟨decodeWord_ofNat rfl (by simp [encode, packXKK_toNat]; omega), fun s => ⟨fun k hk hlow => ?_, fun hk => ?_⟩⟩
  · have h := execLdVxK_of_lowest x (State.lowestPressed_eq_some.2 ⟨hk, hlow⟩)
    have hwait : s.waitsForKey = false :=
      Bool.eq_false_iff.2 fun hw => by simpa [hk] using (State.waitsForKey_iff.1 hw).2 k
    refine ⟨_, h, ?_, fun j hj => s.getV_setV_ne _ hj, rfl, fun hs hf => ?_⟩
    · refine (congrArg BitVec.toNat (s.getV_setV_self x (trunc8 k.val))).trans ?_
      rw [trunc8, BitVec.toNat_ofNat]
      omega
    · exact step_and_output hs hf h hs hwait
  · have h := execLdVxK_of_no_key x hk
    refine ⟨h, fun hs hf => ?_⟩
    have hwait := State.waitsForKey_iff.2 ⟨⟨x, hf⟩, hk⟩
    exact step_and_output hs hf h hs hwait

/-- Settles O19: each writes its one destination and moves on. -/
theorem timerMovesAndAddToIndex : Obligations.TimerMovesAndAddToIndex := by
  intro x
  refine ⟨decodeWord_ofNat rfl ?_, decodeWord_ofNat rfl ?_, decodeWord_ofNat rfl ?_, fun s =>
    ⟨⟨_, rfl, regResult_setV_advance s x s.dt⟩, rfl, ⟨_, rfl, BitVec.toNat_ofNat .., rfl⟩⟩⟩
  all_goals simp [encode, packXKK_toNat]; omega

/-- Settles O20: the glyph address does not wrap, and a glyph ends inside the font. -/
theorem ldFPointsAtGlyph : Obligations.LdFPointsAtGlyph := by
  intro x
  refine ⟨decodeWord_ofNat rfl (by simp [encode, packXKK_toNat]; omega), fun s => ⟨_, rfl, ?_⟩⟩
  have hi := glyphAddress_toNat s (s.getV x)
  refine ⟨hi, rfl, ?_, fun hwf => ?_⟩
  · change (glyphAddress (s.getV x) s).toNat + 4 < _
    omega
  · have hfont : s.config.fontBase.toNat + 80 ≤ 0x200 := of_decide_eq_true hwf
    change (glyphAddress (s.getV x) s).toNat + 4 < _
    omega

/-- Settles O24, by running the decoder on each word. -/
theorem sampleWordsDecode : Obligations.SampleWordsDecode := by
  unfold Obligations.SampleWordsDecode
  decide

end Sys2Proof.Proofs

/-!
PROOF. The instructions that access memory (R53, R64, R67, R212 to R214, R277). In range they complete, past 0xFFF they
halt; what they store is read back by `Memory.read_writeAll`, by a load and by the next fetch alike.
-/
namespace Sys2Proof.Machine

variable {s t : State} {x : Index}

/-! In range, no halt. -/

theorem execHaltCause_ldBVx (h : s.i.toNat + 2 ≤ 0xFFF) : execHaltCause (.ldBVx x) s = none :=
  if_pos (addressesOk_iff.2 (by omega))

theorem execHaltCause_storeRegs (h : s.i.toNat + x.val ≤ 0xFFF) : execHaltCause (.storeRegs x) s = none :=
  if_pos (addressesOk_iff.2 (by omega))

theorem execHaltCause_loadRegs (h : s.i.toNat + x.val ≤ 0xFFF) : execHaltCause (.loadRegs x) s = none :=
  if_pos (addressesOk_iff.2 (by omega))

/-- A step between running states is a completion. -/
theorem eq_completed_of_running {i : Instr} (ht : t.status = .running) (h : exec i s = .next t) :
    execHaltCause i s = none ∧ t = completed i s := by
  obtain ⟨r, -, rfl⟩ | hc := exec_cases h
  · cases ht
  · exact hc

/-! What is stored. -/

theorem bcdDigits_map_toNat (v : Byte) :
    (bcdDigits v).map BitVec.toNat = [v.toNat / 100, v.toNat / 10 % 10, v.toNat % 10] := by
  revert v
  decide

/-- The bytes after a store in range, in the words of the statements. -/
theorem byteAt_of_store {base a : Nat} {bytes : List Byte} (hb : base + bytes.length ≤ 0x1000)
    (hm : Memory.wf s.config s.mem = true) (hc : t.config = s.config)
    (ht : t.mem = Memory.writeAll s.config base bytes s.mem) : t.byteAt a = byteAfterStore base bytes s a := by
  rw [State.byteAt, hc, ht]
  exact Memory.read_writeAll s.config a bytes hb hm

theorem sameMemoryOutside_of_store {base : Nat} {bytes : List Byte} (hc : t.config = s.config)
    (ht : t.mem = Memory.writeAll s.config base bytes s.mem) : SameMemoryOutside base bytes.length s t := by
  intro a ha
  rw [State.byteAt, hc, ht]
  exact Memory.read_writeAll_outside s.config bytes s.mem ha

theorem byteAfterStore_inside {base k : Nat} {bytes : List Byte} (hk : k < bytes.length) :
    byteAfterStore base bytes s (base + k) = bytes[k] := by
  simp [byteAfterStore, hk]

/-- Byte k of the stored registers. -/
theorem byteAfterStore_registersTo {base : Nat} {k : Index} (hk : k ≤ x) :
    byteAfterStore base (registersTo x s) s (base + k.val) = s.getV k := by
  have hlen : k.val < (registersTo x s).length := by
    rw [registersTo_length]
    exact Nat.lt_succ_of_le hk
  rw [byteAfterStore_inside hlen, registersTo_getElem]

theorem incrementedI_toNat (hq : s.config.quirkMemIncrementI = true) :
    (incrementedI x s).toNat = (s.i.toNat + x.val + 1) % 0x10000 := by
  rw [incrementedI, if_pos hq]
  exact BitVec.toNat_ofNat ..

theorem incrementedI_eq (hq : s.config.quirkMemIncrementI = false) : incrementedI x s = s.i :=
  if_neg (by simp [hq])

/-- Fx55 in range: the registers read back from memory. -/
theorem completed_storeRegs_byteAt {k : Index} (hr : s.i.toNat + x.val ≤ 0xFFF) (hm : Memory.wf s.config s.mem = true)
    (hk : k ≤ x) : (completed (.storeRegs x) s).byteAt (s.i.toNat + k.val) = s.getV k := by
  refine (byteAt_of_store (t := completed (.storeRegs x) s) ?_ hm rfl rfl).trans (byteAfterStore_registersTo hk)
  rw [registersTo_length]
  omega

/-- Fx33 in range: digit k reads back from memory. -/
theorem completed_ldBVx_byteAt {k : Nat} (hr : s.i.toNat + 2 ≤ 0xFFF) (hm : Memory.wf s.config s.mem = true)
    (hk : k < (bcdDigits (s.getV x)).length) :
    (completed (.ldBVx x) s).byteAt (s.i.toNat + k) = (bcdDigits (s.getV x))[k] := by
  refine (byteAt_of_store (t := completed (.ldBVx x) s) ?_ hm rfl rfl).trans (byteAfterStore_inside hk)
  rw [bcdDigits_length]
  omega

/-- The fetch after a store reads each of its two bytes as the store left it (R64, R277). -/
theorem fetchWord_of_store {base : Nat} {bytes : List Byte} (hlo : 0x200 ≤ t.pc.toNat) (hhi : t.pc.toNat ≤ 0xFFE)
    (hb : base + bytes.length ≤ 0x1000) (hm : Memory.wf s.config s.mem = true) (hc : t.config = s.config)
    (ht : t.mem = Memory.writeAll s.config base bytes s.mem) :
    t.fetchWord = some (wordOfBytes (byteAfterStore base bytes s t.pc.toNat)
      (byteAfterStore base bytes s (t.pc.toNat + 1))) := by
  rw [State.fetchWord_of_range hlo hhi, byteAt_of_store hb hm hc ht, byteAt_of_store hb hm hc ht]

end Sys2Proof.Machine

namespace Sys2Proof.Proofs

open Sys2Proof.Machine

/-- Settles O15: the check of each of the four instructions fails, and the halt changes the status alone. -/
theorem accessPastMemoryHalts : Obligations.AccessPastMemoryHalts := by
  intro s
  have hhalt : ∀ i : Instr, execHaltCause i s = some .addressOutOfRange →
      exec i s = .next { s with status := .halted .addressOutOfRange } := fun i => exec_of_execHaltCause_some
  refine ⟨fun x y n hn hr => hhalt _ ?_, fun x hr => hhalt _ ?_, fun x hr => ⟨hhalt _ ?_, hhalt _ ?_⟩⟩
  · exact execHaltCause_eq_addressOutOfRange.2 (.inl ⟨x, y, n, rfl, hn, hr⟩)
  · exact execHaltCause_eq_addressOutOfRange.2 (.inr (.inl ⟨x, rfl, hr⟩))
  · exact execHaltCause_eq_addressOutOfRange.2 (.inr (.inr ⟨x, .inl rfl, hr⟩))
  · exact execHaltCause_eq_addressOutOfRange.2 (.inr (.inr ⟨x, .inr rfl, hr⟩))

/-- Settles O21: the three digits are the block stored at I. -/
theorem bcdStoresDigits : Obligations.BcdStoresDigits := by
  intro x
  refine ⟨decodeWord_ofNat rfl (by simp [encode, packXKK_toNat]; omega), fun s hr => ?_⟩
  refine ⟨_, exec_of_execHaltCause_none (execHaltCause_ldBVx hr), rfl,
    sameMemoryOutside_of_store (bytes := bcdDigits (s.getV x)) rfl rfl, fun hm => ?_⟩
  have hread : ∀ k (hk : k < (bcdDigits (s.getV x)).length),
      ((completed (.ldBVx x) s).byteAt (s.i.toNat + k)).toNat = (bcdDigits (s.getV x))[k].toNat := fun k hk =>
    congrArg BitVec.toNat (completed_ldBVx_byteAt hr hm hk)
  have hdigits := bcdDigits_map_toNat (s.getV x)
  simp only [bcdDigits, List.map_cons, List.map_nil, List.cons.injEq, and_true] at hdigits
  obtain ⟨hundreds, tens, ones⟩ := hdigits
  exact ⟨(hread 0 (by simp)).trans hundreds, (hread 1 (by simp)).trans tens, (hread 2 (by simp)).trans ones⟩

/-- Settles O22: V0 to V[x] are the block stored at I. -/
theorem storeRegistersToMemory : Obligations.StoreRegistersToMemory := by
  intro x
  refine ⟨decodeWord_ofNat rfl (by simp [encode, packXKK_toNat]; omega), fun s hr => ?_⟩
  have hout : SameMemoryOutside s.i.toNat (x.val + 1) s (completed (.storeRegs x) s) := by
    rw [← registersTo_length s x]
    exact sameMemoryOutside_of_store rfl rfl
  exact ⟨_, exec_of_execHaltCause_none (execHaltCause_storeRegs hr), rfl, hout,
    fun hm k hk => completed_storeRegs_byteAt hr hm hk, incrementedI_toNat, incrementedI_eq⟩

/-- Settles O23: the register file of a load, register by register. -/
theorem loadRegistersFromMemory : Obligations.LoadRegistersFromMemory := by
  intro x
  refine ⟨decodeWord_ofNat rfl (by simp [encode, packXKK_toNat]; omega), fun s hr => ?_⟩
  exact ⟨_, exec_of_execHaltCause_none (execHaltCause_loadRegs hr), rfl,
    fun k hk => getV_loadedV.trans (if_pos hk), fun k hk => getV_loadedV.trans (if_neg (not_le.2 hk)),
    incrementedI_toNat, incrementedI_eq⟩

/-- Settles O51: both instructions complete, since they end running, and store one block; the digits given are those of
V[x]. -/
theorem storesReachTheNextFetch : Obligations.StoresReachTheNextFetch := by
  intro x s t hm _ ht hlo hhi
  refine ⟨fun h => ?_, fun h digits hdigits => ?_⟩
  · obtain ⟨hc, rfl⟩ := eq_completed_of_running ht h
    refine fetchWord_of_store (bytes := registersTo x s) hlo hhi ?_ hm rfl rfl
    have hok := addressesOk_of_no_halt hc
    rw [addressesOk_iff] at hok
    rw [registersTo_length]
    omega
  · obtain ⟨hc, rfl⟩ := eq_completed_of_running ht h
    obtain rfl : digits = bcdDigits (s.getV x) :=
      List.map_injective_iff.2 (fun _ _ => BitVec.eq_of_toNat_eq) (hdigits.trans (bcdDigits_map_toNat _).symm)
    have hok := addressesOk_of_no_halt hc
    rw [addressesOk_iff] at hok
    refine fetchWord_of_store hlo hhi ?_ hm rfl rfl
    rw [bcdDigits_length]
    omega

/-- Settles O52: the load reads the stored block, whatever the registers hold in between. -/
theorem loadAfterStoreRestoresRegisters : Obligations.LoadAfterStoreRestoresRegisters := by
  intro x s w hm hr
  refine ⟨_, _, exec_of_execHaltCause_none (execHaltCause_storeRegs hr),
    exec_of_execHaltCause_none (execHaltCause_loadRegs hr), fun k hk => ?_, fun k hk => ?_⟩
  · exact (getV_loadedV.trans (if_pos hk)).trans (completed_storeRegs_byteAt hr hm hk)
  · exact getV_loadedV.trans (if_neg (not_le.2 hk))

/-- Settles O53: CALL writes the entry at SP alone, and RET pops it. -/
theorem retResumesAfterCall : Obligations.RetResumesAfterCall := by
  intro nnn s hsp
  have hcall : execHaltCause (.call nnn) s = none := if_pos hsp
  have hmin : min (s.sp.val + 1) 16 = s.sp.val + 1 := Nat.min_eq_left hsp
  have hret : execHaltCause .ret (completed (.call nnn) s) = none := if_pos (by simp [completed])
  refine ⟨_, _, exec_of_execHaltCause_none hcall, exec_of_execHaltCause_none hret, ?_, fun j hj => ?_⟩
  · simp [completed, hmin, State.nextPc]
  · exact (Vector.getElem_setIfInBounds j.isLt).trans (if_neg (by omega))

end Sys2Proof.Proofs

/-!
PROOF. The sprite blit (R162 to R165). `Flips P d e` says in one word what a part of a blit does: it flips the pixels of
P, and collides where one of them was set. One sprite bit flips one pixel; the bits of a row fall in different columns
and the rows in different rows, for at most 8 and at most 32 do not wrap onto each other; so the parts compose.
-/
namespace Sys2Proof.Machine

/-- From `d` to `e` exactly the pixels of P flip, and a set one among them is a collision. -/
def Flips (P : Fin 64 → Fin 32 → Prop) (d e : Blit) : Prop :=
  (∀ px py, P px py → e.1.pixel px py = !d.1.pixel px py) ∧
  (∀ px py, ¬ P px py → e.1.pixel px py = d.1.pixel px py) ∧
  (e.2 = true ↔ d.2 = true ∨ ∃ px py, P px py ∧ d.1.pixel px py = true)

section
variable {P Q : Fin 64 → Fin 32 → Prop} {d e f : Blit}

theorem Flips.congr (h : Flips P d e) (hPQ : ∀ px py, P px py ↔ Q px py) : Flips Q d e := by
  obtain rfl : P = Q := funext fun px => funext fun py => propext (hPQ px py)
  exact h

theorem Flips.refl (hP : ∀ px py, ¬ P px py) (d : Blit) : Flips P d d :=
  ⟨fun px py h => absurd h (hP px py), fun _ _ _ => rfl, by simp [hP]⟩

theorem Flips.trans (h₁ : Flips P d e) (h₂ : Flips Q e f) (hPQ : ∀ px py, P px py → ¬ Q px py) :
    Flips (fun px py => P px py ∨ Q px py) d f := by
  obtain ⟨hflip₁, hkeep₁, hcoll₁⟩ := h₁
  obtain ⟨hflip₂, hkeep₂, hcoll₂⟩ := h₂
  have hQ : ∀ px py, Q px py → e.1.pixel px py = d.1.pixel px py := fun px py hq =>
    hkeep₁ px py fun hp => hPQ px py hp hq
  refine ⟨fun px py h => ?_, fun px py h => ?_, ?_⟩
  · obtain hp | hq := h
    · rw [hkeep₂ px py (hPQ px py hp), hflip₁ px py hp]
    · rw [hflip₂ px py hq, hQ px py hq]
  · obtain ⟨hp, hq⟩ := not_or.1 h
    rw [hkeep₂ px py hq, hkeep₁ px py hp]
  · have hset : (∃ px py, Q px py ∧ e.1.pixel px py = true) ↔ ∃ px py, Q px py ∧ d.1.pixel px py = true :=
      exists_congr fun px => exists_congr fun py => and_congr_right fun hq => by rw [hQ px py hq]
    rw [hcoll₂, hcoll₁, hset, or_assoc]
    simp only [or_and_right, exists_or]

/-- One sprite bit (R162, R165). -/
theorem flips_blitPixel (x : Fin 64) (y : Fin 32) (d : Blit) :
    Flips (fun px py => px = x ∧ py = y) d (blitPixel x y d) := by
  refine ⟨fun px py h => ?_, fun px py h => ?_, ?_⟩
  · rw [(blitPixel_spec x px y py d).1, decide_eq_true h, Bool.xor_true]
  · rw [(blitPixel_spec x px y py d).1, decide_eq_false h, Bool.xor_false]
  · simp [(blitPixel_spec x x y y d).2]

/-! A row: its first k columns. -/

/-- One of the first `k` bits of a sprite row at column `x0` on row `y` is 1 and lands on the pixel (R163, R164). -/
def RowCovers (x0 : Nat) (y : Fin 32) (b : Byte) (k : Nat) (px : Fin 64) (py : Fin 32) : Prop :=
  py = y ∧ ∃ col, col < k ∧ spriteBit b col = true ∧ px = wrapColumn (x0 + col)

/-- The columns of one row do not wrap onto each other. -/
theorem wrapColumn_ne {x0 col k : Nat} (hcol : col < k) (hk : k < 64) :
    wrapColumn (x0 + col) ≠ wrapColumn (x0 + k) := by
  intro h
  have := congrArg Fin.val h
  simp only [wrapColumn] at this
  omega

theorem rowCovers_succ {x0 : Nat} {y : Fin 32} {b : Byte} {k : Nat} {px : Fin 64} {py : Fin 32} :
    RowCovers x0 y b (k + 1) px py ↔
      RowCovers x0 y b k px py ∨ spriteBit b k = true ∧ px = wrapColumn (x0 + k) ∧ py = y := by
  constructor
  · rintro ⟨hy, col, hcol, hbit, hx⟩
    obtain h | rfl := Nat.lt_succ_iff_lt_or_eq.1 hcol
    · exact .inl ⟨hy, col, h, hbit, hx⟩
    · exact .inr ⟨hbit, hx, hy⟩
  · rintro (⟨hy, col, hcol, hbit, hx⟩ | ⟨hbit, hx, hy⟩)
    · exact ⟨hy, col, Nat.lt_succ_of_lt hcol, hbit, hx⟩
    · exact ⟨hy, k, Nat.lt_succ_self k, hbit, hx⟩

/-- The columns of a row from left to right, up to column k. -/
theorem flips_firstColumns (x0 : Nat) (y : Fin 32) (b : Byte) (d : Blit) {k : Nat} (hk : k ≤ 64) :
    Flips (RowCovers x0 y b k) d ((List.range k).foldl
      (fun d col => if spriteBit b col then blitPixel (wrapColumn (x0 + col)) y d else d) d) := by
  induction k with
  | zero => exact Flips.refl (fun _ _ ⟨_, _, hcol, _⟩ => Nat.not_lt_zero _ hcol) d
  | succ k ih =>
    have ih := ih (Nat.le_of_succ_le hk)
    rw [List.range_succ, List.foldl_append, List.foldl_cons, List.foldl_nil]
    by_cases hbit : spriteBit b k = true
    · rw [if_pos hbit]
      refine (ih.trans (flips_blitPixel _ y _) ?_).congr fun px py => by rw [rowCovers_succ]; simp [hbit]
      rintro px py ⟨-, col, hcol, -, hx⟩ ⟨hx', -⟩
      exact wrapColumn_ne hcol hk (hx.symm.trans hx')
    · rw [if_neg hbit]
      exact ih.congr fun px py => by rw [rowCovers_succ]; simp [hbit]

theorem flips_blitRow (x0 : Nat) (y : Fin 32) (b : Byte) (d : Blit) :
    Flips (RowCovers x0 y b 8) d (blitRow x0 y b d) := flips_firstColumns x0 y b d (by decide)

/-! The rows of a sprite. -/

/-- A row of a sprite, placed from row offset `row` on, covers the pixel. -/
def RowsCover (x0 y0 row : Nat) (bytes : List Byte) (px : Fin 64) (py : Fin 32) : Prop :=
  ∃ (r : Nat) (hr : r < bytes.length), RowCovers x0 (wrapRow (y0 + (row + r))) bytes[r] 8 px py

/-- The rows of one sprite do not wrap onto each other. -/
theorem wrapRow_ne {y0 row r : Nat} (hr : r + 1 < 32) : wrapRow (y0 + row) ≠ wrapRow (y0 + (row + 1 + r)) := by
  intro h
  have := congrArg Fin.val h
  simp only [wrapRow] at this
  omega

theorem rowsCover_cons {x0 y0 row : Nat} {b : Byte} {rest : List Byte} {px : Fin 64} {py : Fin 32} :
    RowsCover x0 y0 row (b :: rest) px py ↔
      RowCovers x0 (wrapRow (y0 + row)) b 8 px py ∨ RowsCover x0 y0 (row + 1) rest px py := by
  have hnext : ∀ r, row + (r + 1) = row + 1 + r := fun r => by omega
  constructor
  · rintro ⟨r, hr, h⟩
    cases r with
    | zero => exact .inl h
    | succ r =>
      rw [hnext] at h
      exact .inr ⟨r, Nat.lt_of_succ_lt_succ hr, h⟩
  · rintro (h | ⟨r, hr, h⟩)
    · exact ⟨0, Nat.succ_pos _, h⟩
    · rw [← hnext] at h
      exact ⟨r + 1, Nat.succ_lt_succ hr, h⟩

theorem flips_blitRows (x0 y0 : Nat) (bytes : List Byte) (hlen : bytes.length ≤ 32) (row : Nat) (d : Blit) :
    Flips (RowsCover x0 y0 row bytes) d (blitRows x0 y0 row bytes d) := by
  induction bytes generalizing row d with
  | nil => exact Flips.refl (fun _ _ ⟨_, hr, _⟩ => Nat.not_lt_zero _ hr) d
  | cons b rest ih =>
    rw [List.length_cons] at hlen
    refine ((flips_blitRow x0 (wrapRow (y0 + row)) b d).trans (ih (by omega) (row + 1) _) ?_).congr
      fun px py => rowsCover_cons.symm
    rintro px py ⟨hy, -⟩ ⟨r, hr, hy', -⟩
    exact wrapRow_ne (by omega) (hy.symm.trans hy')

end

/-! The instruction. -/

section
variable {s : State} {x y : Index} {n : Nibble}

theorem rowsCover_bytesAt {px : Fin 64} {py : Fin 32} :
    RowsCover (s.getV x).toNat (s.getV y).toNat 0 (s.bytesAt s.i.toNat n.toNat) px py ↔ SpriteCovers s x y n px py := by
  simp only [RowsCover, RowCovers, SpriteCovers, State.bytesAt_getElem, State.bytesAt_length, spriteBit, Nat.zero_add,
    Fin.ext_iff, wrapColumn, wrapRow]
  constructor
  · rintro ⟨row, hrow, hy, col, hcol, hbit, hx⟩
    exact ⟨row, col, hrow, hcol, hbit, hx, hy⟩
  · rintro ⟨row, col, hrow, hcol, hbit, hx, hy⟩
    exact ⟨row, hrow, hy, col, hcol, hbit, hx⟩

/-- Dxyn flips exactly the pixels its sprite covers (R162). -/
theorem flips_drawn : Flips (SpriteCovers s x y n) (s.fb, false) (drawn x y n s) := by
  have hn : n.toNat < 16 := n.isLt
  rw [drawn]
  refine (flips_blitRows _ _ (s.bytesAt s.i.toNat n.toNat) ?_ 0 (s.fb, false)).congr fun _ _ => rowsCover_bytesAt
  rw [State.bytesAt_length]
  omega

theorem drawn_collides_iff :
    (drawn x y n s).2 = true ↔ ∃ px py, SpriteCovers s x y n px py ∧ s.fb.pixel px py = true := by
  obtain ⟨-, -, hcoll⟩ := flips_drawn (s := s) (x := x) (y := y) (n := n)
  simpa using hcoll

theorem execHaltCause_drw (h : n = 0 ∨ s.i.toNat + n.toNat - 1 ≤ 0xFFF) : execHaltCause (.drw x y n) s = none := by
  refine if_pos (addressesOk_iff.2 ?_)
  obtain rfl | h := h
  · exact .inl rfl
  · omega

theorem completed_drw_getV_vf : (completed (.drw x y n) s).getV 15 = flagByte (drawn x y n s).2 :=
  State.getV_setV_self _ vf _

theorem completed_drw_getV {j : Index} (hj : j ≠ 15) : (completed (.drw x y n) s).getV j = s.getV j :=
  completed_getV (by simp [Instr.destination]) (by simp) (fun h => absurd h hj)

theorem flagByte_eq_one {b : Bool} : flagByte b = 0x01 ↔ b = true := by
  cases b <;> decide

theorem flagByte_eq_zero {b : Bool} : flagByte b = 0x00 ↔ b = false := by
  cases b <;> decide

end

end Sys2Proof.Machine

namespace Sys2Proof.Proofs

open Sys2Proof.Machine

/-- Settles O14: the pixels that flip are those covered, so a pixel that goes from set to unset is a covered set one. -/
theorem drwXorsSpriteAndReportsCollision : Obligations.DrwXorsSpriteAndReportsCollision := by
  intro x y n
  refine ⟨decodeWord_ofNat rfl (by simp [encode, packXYN_toNat]; omega), fun s hr => ?_⟩
  obtain ⟨hflip, hkeep, -⟩ := flips_drawn (s := s) (x := x) (y := y) (n := n)
  refine ⟨_, exec_of_execHaltCause_none (execHaltCause_drw hr), hflip, hkeep, ?_, fun hstay => ?_,
    fun j => completed_drw_getV, rfl⟩
  · rintro ⟨px, py, hset, hunset⟩
    rw [completed_drw_getV_vf, flagByte_eq_one, drawn_collides_iff]
    refine ⟨px, py, ?_, hset⟩
    by_contra hnot
    exact absurd ((hkeep px py hnot).symm.trans hunset) (by rw [hset]; decide)
  · rw [completed_drw_getV_vf, flagByte_eq_zero, ← Bool.not_eq_true, drawn_collides_iff]
    rintro ⟨px, py, hcov, hset⟩
    exact absurd ((hflip px py hcov).symm.trans (hstay px py hset)) (by rw [hset]; decide)

/-- Settles O42: of the completions only CLS and DRW touch the display, and DRW keeps what its sprite does not cover. -/
theorem pixelsChangedOnlyByClsAndDrw : Obligations.PixelsChangedOnlyByClsAndDrw := by
  intro i s t px py h hne
  obtain rfl := completed_of_field_ne (fun u => u.fb.pixel px py) (fun _ => rfl) h hne
  cases i with
  | cls => exact .inl rfl
  | drw x y n =>
    obtain ⟨-, hkeep, -⟩ := flips_drawn (s := s) (x := x) (y := y) (n := n)
    refine .inr ⟨x, y, n, rfl, ?_⟩
    by_contra hnot
    exact hne (hkeep px py hnot)
  | _ => exact absurd rfl hne

/-- Settles O54: the second drawing covers the same pixels, so it flips each of them back, and it collides where the
first one set a pixel. -/
theorem drawingTwiceRestoresDisplay : Obligations.DrawingTwiceRestoresDisplay := by
  intro x y n s hx hy hr
  refine ⟨_, _, exec_of_execHaltCause_none (execHaltCause_drw hr),
    exec_of_execHaltCause_none (execHaltCause_drw hr), ?_⟩
  generalize ht : completed (.drw x y n) s = t
  have hcov : SpriteCovers t x y n = SpriteCovers s x y n := by
    subst ht
    funext px py
    simp only [SpriteCovers, completed_drw_getV hx, completed_drw_getV hy]
    rfl
  have hfb : t.fb = (drawn x y n s).1 := ht ▸ rfl
  obtain ⟨hflip₁, hkeep₁, -⟩ := flips_drawn (s := s) (x := x) (y := y) (n := n)
  obtain ⟨hflip₂, hkeep₂, -⟩ := flips_drawn (s := t) (x := x) (y := y) (n := n)
  rw [hcov, hfb] at hflip₂ hkeep₂
  refine ⟨Framebuffer.pixel_ext fun px py => ?_, ?_⟩
  · change (drawn x y n t).1.pixel px py = s.fb.pixel px py
    by_cases h : SpriteCovers s x y n px py
    · rw [hflip₂ px py h, hflip₁ px py h, Bool.not_not]
    · rw [hkeep₂ px py h, hkeep₁ px py h]
  · rw [completed_drw_getV_vf, flagByte_eq_one, drawn_collides_iff, hcov, hfb]
    refine exists_congr fun px => exists_congr fun py => and_congr_right fun h => ?_
    rw [hflip₁ px py h, Bool.not_eq_true']

end Sys2Proof.Proofs

/-!
PROOF. Construction and the host (R34, R40, R51, R251, R255 to R261, R270 to R273): what construction leaves, what the
host's operations write, and the first step after a load.
-/
namespace Sys2Proof.Machine

variable {s t : State}

/-! Construction. -/

theorem getV_construct (c : Config) (j : Index) : (construct c).getV j = 0x00 := by
  simp [construct, State.getV]

theorem stack_construct (c : Config) (j : Index) : (construct c).stack[j] = 0x0000 := by
  simp [construct]

theorem keys_construct (c : Config) (j : Index) : (construct c).keys[j] = false := by
  simp [construct]

/-! The timers and the keys. -/

theorem countDown_toNat (b : Byte) : (countDown b).toNat = b.toNat - 1 := by
  rw [countDown, trunc8, BitVec.toNat_ofNat]
  omega

/-- The state after n ticks (R251). -/
theorem tick_iterate (n : Nat) (s : State) :
    (tick^[n] s).dt.toNat = s.dt.toNat - n ∧ (tick^[n] s).st.toNat = s.st.toNat - n ∧
      tick^[n] s = { s with dt := (tick^[n] s).dt, st := (tick^[n] s).st } := by
  induction n with
  | zero => exact ⟨rfl, rfl, rfl⟩
  | succ n ih =>
    obtain ⟨hdt, hst, hframe⟩ := ih
    rw [Function.iterate_succ_apply']
    refine ⟨?_, ?_, ?_⟩
    · change (countDown (tick^[n] s).dt).toNat = _
      rw [countDown_toNat, hdt, Nat.sub_sub]
    · change (countDown (tick^[n] s).st).toNat = _
      rw [countDown_toNat, hst, Nat.sub_sub]
    · rw [hframe]
      rfl

theorem keys_setKey (k j : Index) (b : Bool) : (setKey k b s).keys[j] = if j = k then b else s.keys[j] := by
  simp [setKey, Vector.getElem_set, Fin.ext_iff, eq_comm (a := k.val)]

/-- A signal in range presses the key it names, if it names one (R34). -/
theorem setPressedKeySignal_of_ok {v : Byte} (hv : v.toNat ≤ 0xF) :
    ∃ t, setPressedKeySignal v s = .ok t ∧
      (∀ k : Index, t.keys[k] = (v.toNat != 0 && k.val == v.toNat)) ∧ t = { s with keys := t.keys } := by
  refine ⟨_, if_pos (decide_eq_true hv), fun k => ?_, rfl⟩
  simp

/-! The load. -/

theorem loadRom_of_fits {bytes : List Byte} (h : bytes.length ≤ 0xE00) :
    loadRom bytes s = .ok (s.setMem (Memory.writeAll s.config 0x200 bytes s.mem)) :=
  loadRom_eq_ok.2 ⟨h, rfl⟩

theorem loadRom_of_too_long {bytes : List Byte} (h : 0xE00 < bytes.length) : loadRom bytes s = .error .romTooLong :=
  if_neg fun hfits => absurd (of_decide_eq_true hfits : bytes.length ≤ 0xE00) (by omega)

/-- The constructed machine with a ROM loaded. -/
def withRom (c : Config) (rom : List Byte) : State :=
  (construct c).setMem (Memory.writeAll c 0x200 rom [])

/-- The ROM's bytes where they were put. -/
theorem byteAt_withRom {c : Config} {rom : List Byte} (h : rom.length ≤ 0xE00) {j : Nat} (hj : j < rom.length) :
    (withRom c rom).byteAt (0x200 + j) = rom[j] :=
  Memory.read_writeAll_inside c rom hj (Nat.zero_le _) (by omega) (construct_mem_wf c)

/-- Everything else as constructed. -/
theorem byteAt_withRom_outside {c : Config} {rom : List Byte} {a : Nat} (h : a < 0x200 ∨ 0x200 + rom.length ≤ a) :
    (withRom c rom).byteAt a = (construct c).byteAt a :=
  Memory.read_writeAll_outside c rom [] h

/-- The first fetch after a load reads the instruction whose bytes the ROM begins with (R272). -/
theorem fetchInstr_withRom {c : Config} {i : Instr} {rest : List Byte} (hi : i.wf = true)
    (hlen : (encodeBytes i ++ rest).length ≤ 0xE00) : (withRom c (encodeBytes i ++ rest)).fetchInstr = some i := by
  have hhigh := byteAt_withRom (c := c) hlen (j := 0) (by simp [encodeBytes])
  have hlow := byteAt_withRom (c := c) hlen (j := 1) (by simp [encodeBytes])
  refine State.fetchInstr_eq_some.2 ⟨encode i, ?_, decodeWord_encode hi⟩
  have hpc : (withRom c (encodeBytes i ++ rest)).pc.toNat = 0x200 := rfl
  rw [State.fetchWord_of_range (le_of_eq hpc.symm) (by rw [hpc]; decide), hpc]
  rw [Nat.add_zero] at hhigh
  rw [hhigh, hlow]
  exact congrArg some (wordOfBytes_high_low (encode i))

/-! The host's moves. -/

/-- Beside construction and steps a move that is performed is one of five changes of the engine. -/
theorem Session.perform_cases {p q : Session} {op : HostOp} (hc : ∀ c, op ≠ .construct c) (hs : ∀ r, op ≠ .step r)
    (h : p.perform op = .ok q) :
    q.begun = p.begun ∧
      ((∃ rom m, op = .loadRom rom ∧ q.engine = { p.engine with mem := m }) ∨
      (∃ ks, ((∃ k b, op = .setKey k b) ∨ ∃ v, op = .setPressedKeySignal v) ∧ q.engine = { p.engine with keys := ks }) ∨
      (op = .tick ∧ q.engine = tick p.engine) ∨
      ((op = .start ∨ op = .readDisplay) ∧ q.engine = p.engine)) := by
  cases op with
  | construct c => exact absurd rfl (hc c)
  | step r => exact absurd rfl (hs r)
  | loadRom rom =>
    simp only [Session.perform] at h
    split at h
    · cases h
    · obtain ⟨t, ht, rfl⟩ := map_eq_ok.1 h
      exact ⟨rfl, .inl ⟨rom, _, rfl, (loadRom_eq_ok.1 ht).2⟩⟩
  | setKey k b =>
    cases h
    exact ⟨rfl, .inr (.inl ⟨_, .inl ⟨k, b, rfl⟩, rfl⟩)⟩
  | setPressedKeySignal v =>
    obtain ⟨t, ht, rfl⟩ := map_eq_ok.1 h
    exact ⟨rfl, .inr (.inl ⟨_, .inr ⟨v, rfl⟩, setPressedKeySignal_eq_ok ht⟩)⟩
  | tick =>
    cases h
    exact ⟨rfl, .inr (.inr (.inl ⟨rfl, rfl⟩))⟩
  | start =>
    simp only [Session.perform] at h
    split at h <;> cases h
    exact ⟨rfl, .inr (.inr (.inr ⟨.inl rfl, rfl⟩))⟩
  | readDisplay =>
    cases h
    exact ⟨rfl, .inr (.inr (.inr ⟨.inr rfl, rfl⟩))⟩

end Sys2Proof.Machine

namespace Sys2Proof.Proofs

open Sys2Proof.Machine

/-- Settles O55: registers, stack and keys entry by entry, memory by what an unlisted address reads as. -/
theorem constructionValues : Obligations.ConstructionValues := by
  refine ⟨fun c => ⟨fun j => ⟨getV_construct c j, stack_construct c j, keys_construct c j⟩, rfl, rfl, rfl, rfl, rfl,
    pixel_blank, rfl, rfl, rfl, fun j => unlistedByte_font c j, fun a => unlistedByte_outside c⟩,
    rfl, rfl, rfl, rfl, rfl, rfl, rfl⟩

/-- Settles O56, by induction on the number of ticks. -/
theorem ticksCountDown : Obligations.TicksCountDown := fun n s => ⟨_, rfl, tick_iterate n s⟩

/-- Settles O57: one entry of the keys is written, or all of them by the signal. -/
theorem keySignalSetsKeys : Obligations.KeySignalSetsKeys := by
  refine ⟨fun k b s => ⟨_, rfl, ?_, fun j hj => ?_, rfl⟩, fun v s => ⟨?_, fun d hd hd0 => ?_, fun hv => ?_⟩⟩
  · rw [keys_setKey, if_pos rfl]
  · rw [keys_setKey, if_neg hj]
  · rintro rfl
    obtain ⟨t, ht, hkeys, hframe⟩ := setPressedKeySignal_of_ok (s := s) (v := 0) (by decide)
    exact ⟨t, ht, fun k => hkeys k, hframe⟩
  · obtain ⟨t, ht, hkeys, hframe⟩ := setPressedKeySignal_of_ok (s := s) (v := v) (by omega)
    have hd0 : d.val ≠ 0 := fun h => hd0 (Fin.ext h)
    refine ⟨t, ht, ?_, fun k hk => ?_, hframe⟩
    · rw [hkeys, hd]
      simp [hd0]
    · have hk : k.val ≠ d.val := fun h => hk (Fin.ext h)
      rw [hkeys, hd]
      simp [hk]
  · exact if_neg fun hok => absurd (of_decide_eq_true hok : v.toNat ≤ 0xF) (by omega)

/-- Settles O58: the block stored at 0x200 reads back, and outside it memory is as constructed, which above 0x200 is
zero, the font lying below. -/
theorem loadRomPlacesProgram : Obligations.LoadRomPlacesProgram := by
  intro c rom hc
  refine ⟨fun hlen => ⟨withRom c rom, loadRom_of_fits hlen, rfl, fun j hj => byteAt_withRom hlen hj,
    fun a ha => byteAt_withRom_outside (.inl ha), fun a ha => ?_⟩, fun hlen s => loadRom_of_too_long hlen⟩
  have hfont : c.fontBase.toNat + 80 ≤ 0x200 := of_decide_eq_true hc
  exact (byteAt_withRom_outside (.inr ha)).trans (unlistedByte_outside c (.inr (by omega)))

/-- Settles O59: the first fetch reads the ROM's first two bytes, so the first step runs their instruction. -/
theorem firstStepRunsTheRom : Obligations.FirstStepRunsTheRom := by
  intro c i rest r _ hi hrest
  have hlen : (encodeBytes i ++ rest).length ≤ 0xE00 := by
    rw [List.length_append]
    exact (Nat.add_le_add_left hrest 2)
  obtain ⟨t, ht⟩ := exists_execWith_eq_next r i (withRom c (encodeBytes i ++ rest))
  have hstep := (stepWith_of_fetchInstr r rfl (fetchInstr_withRom (c := c) hi hlen)).trans ht
  have hload : loadRom (encodeBytes i ++ rest) (construct c) = .ok (withRom c (encodeBytes i ++ rest)) :=
    loadRom_of_fits hlen
  refine ⟨⟨withRom c (encodeBytes i ++ rest), true, false⟩, ⟨t, true, true⟩, ?_, rfl, ?_, ht, rfl⟩
  · simp [Session.perform, Session.fresh, hload, Except.map]
  · simp [Session.perform, hstep]

/-- Settles O60, by the moves that are performed. -/
theorem hostMovesAreConfined : Obligations.HostMovesAreConfined := by
  intro p q
  refine ⟨fun rom hb => if_pos hb, fun hl => if_neg (by simp [hl]), fun op hc hs h => ?_⟩
  obtain ⟨hbegun, ⟨rom, m, rfl, he⟩ | ⟨ks, hop, he⟩ | ⟨rfl, he⟩ | ⟨hop, he⟩⟩ := Session.perform_cases hc hs h
  all_goals rw [he]
  · exact ⟨rfl, hbegun, fun hno => absurd rfl (hno rom), fun _ => ⟨rfl, rfl⟩, fun _ _ => rfl⟩
  · refine ⟨rfl, hbegun, fun _ => rfl, fun _ => ⟨rfl, rfl⟩, fun hk hv => ?_⟩
    obtain ⟨k, b, rfl⟩ | ⟨v, rfl⟩ := hop
    · exact absurd rfl (hk k b)
    · exact absurd rfl (hv v)
  · exact ⟨rfl, hbegun, fun _ => rfl, fun hno => absurd rfl hno, fun _ _ => rfl⟩
  · exact ⟨rfl, hbegun, fun _ => rfl, fun _ => ⟨rfl, rfl⟩, fun _ _ => rfl⟩

end Sys2Proof.Proofs
